-- ==== Sys2Proof/Word.lean ====
section
/-! DEFINITION. The word types of the FCB: bytes, 16-bit values, 4-bit fields and 32-bit port words
(00_scope.md R9, 30_encoding.md R66). Every value is unsigned. -/

namespace Sys2Proof

/-- A byte: an unsigned 8-bit value (00_scope.md R9). -/
abbrev Byte := BitVec 8

/-- A 16-bit value: a checksum, a count of data bytes or an event's INFO field. -/
abbrev Half := BitVec 16

/-- A 4-bit field: OP, RSV, KIND or CODE. -/
abbrev Nibble := BitVec 4

/-- A 32-bit command or event word, moved whole (20_memory.md R44, R46). -/
abbrev Word := BitVec 32

end Sys2Proof
end

