-- ==== Sys2Proof/Config.lean ====
section
/-! DEFINITION. What is fixed before the first command and written by nothing (10_state.md R29): the
number of channels, the message registry and the unpack predicate (00_scope.md R7, R8). -/

namespace Sys2Proof

/-- What the registry knows of a message id: its payload length and its seed byte (00_scope.md R8). -/
structure RegEntry where
  len  : Byte
  seed : Byte
deriving DecidableEq, Repr

/-- A configuration: any NCH of 1..256 (through the highest channel id), any total map REG and any
total predicate UNPACK_OK (00_scope.md R7, R8; 92_eei_decisions.md D1, D2, D18). -/
structure Config where
  /-- NCH - 1. -/
  topChannel : Fin 256
  /-- REG: `none` is "unknown type". -/
  reg : Byte → Option RegEntry
  /-- UNPACK_OK: whether `unpack` accepts a payload for a message id. -/
  unpackOk : Byte → List Byte → Bool
deriving Inhabited

/-- NCH, the number of channels, 1..256 (00_scope.md R7). -/
def Config.nch (cfg : Config) : Nat := cfg.topChannel.val + 1

/-- The open parameters of this FCB. Nothing can be proved about them, so whatever is proved of the
machine holds for all of them. Log entry 5. -/
opaque Config.free : Config

/-- The one registry entry the spec pins down, that of message id 0x00 (00_scope.md R8). -/
def Config.heartbeat : RegEntry := ⟨0x09, 0x32⟩

/-- The configuration of the machine: the open parameters, with the pinned entry of message id 0x00.
DEDUCED, log entry 6; unsafe for a block whose registry has another entry there. -/
def Config.chip : Config :=
  { Config.free with reg := fun id => if id = 0x00 then some Config.heartbeat else Config.free.reg id }

end Sys2Proof
end

