-- ==== Sys2Proof/Machine/State.lean ====
section
/-! DEFINITION. The architectural state of the FCB (10_state.md R20) as plain data, the events it
emits (30_encoding.md R80), the state after reset (R170) and the reasons a step can stop. -/

namespace Sys2Proof.Machine

/-- Why a byte was dropped from the head of a buffer (60_exceptions.md R152). -/
inductive DiscardReason where
  | notMarker
  | unknownId
  | lenMismatch
  | crcMismatch
  | unpackFail
deriving DecidableEq, Repr

/-- The command errors (60_exceptions.md R153). `overflow` is reserved and never emitted (R155). -/
inductive ErrorCode where
  | illegal
  | sequence
  | aborted
  | channel
  | unknownMsgid
  | lenMismatch
  | overflow
deriving DecidableEq, Repr

/-- One event of the output stream, as an abstract record (30_encoding.md R80). -/
inductive Event where
  /-- `EV_DECODED(ch, F)`, with the whole raw frame (R81). -/
  | decoded (ch : Byte) (frame : List Byte)
  /-- `EV_DISCARD(ch, r, x)`, with the dropped byte (R82). -/
  | discard (ch : Byte) (reason : DiscardReason) (byte : Byte)
  /-- `EV_SENT(ch, F)`, with the whole encoded frame (R83). -/
  | sent (ch : Byte) (frame : List Byte)
  /-- `EV_CRC(v)` (R84). -/
  | crc (value : Half)
  /-- `EV_ERROR(code, ch, info)` (R85). -/
  | error (code : ErrorCode) (ch : Byte) (info : Half)
deriving DecidableEq, Repr

/-- One entry of the channel state file (10_state.md R20 to R22). -/
structure Channel where
  /-- BUF: the receive buffer, oldest byte first (R21). -/
  buf : List Byte
  /-- TXSEQ: the outgoing sequence counter (R22). -/
  txseq : Byte
deriving DecidableEq, Repr

/-- A channel after reset: empty buffer, counter 0 (R21, R22, R172). -/
def Channel.reset : Channel := ⟨[], 0⟩

/-- SQ, the command sequencer (R26). -/
inductive Sequencer where
  | idle
  | sendId
  | sendData
  | crcData
deriving DecidableEq, Repr

/-- P, the pending-command latches (R27). `none` is the spec's "no value". -/
structure Latches where
  ch     : Option Byte
  msgid  : Option Byte
  plen   : Option Byte
  sysid  : Option Byte
  compid : Option Byte
  pay    : Option (List Byte)
  seed   : Option Byte
  rem    : Option Half
  acc    : Option Half
deriving DecidableEq, Repr

/-- The latches with no value: after reset, and whenever SQ is IDLE (R27). -/
def Latches.empty : Latches := ⟨none, none, none, none, none, none, none, none, none⟩

/-- The names of the latches, to say which one a fault is about. -/
inductive LatchName where
  | ch
  | msgid
  | plen
  | sysid
  | compid
  | pay
  | seed
  | rem
  | acc
deriving DecidableEq, Repr

/-- What FAULT holds when it is not `none` (R28). -/
inductive FaultRecord where
  /-- BUF_FULL(c): a FEED met a full buffer. -/
  | bufFull (ch : Byte)
deriving DecidableEq, Repr

/-- What the host does to the inputs: it sends a command word or drives the reset input
(20_memory.md R46, 70_reset_and_hazards.md R170). -/
inductive PortInput where
  | word (w : Word)
  | reset
deriving DecidableEq, Repr

/-- The state vector (R20), with the output stream OUT (R31) and what waits on the inputs. -/
structure State where
  /-- CH: entry c is channel c for c < NCH. Entries at or above NCH are no part of the FCB: no
  command reads or writes them, and they keep their reset value (log entry 4). -/
  chans : Vector Channel 256
  /-- SQ (R26). -/
  sq : Sequencer
  /-- P (R27), as last written; `State.latches` gives what the latches hold. -/
  p : Latches
  /-- FAULT (R28). -/
  fault : Option FaultRecord
  /-- OUT: every event emitted so far, oldest first (R31). -/
  out : List Event
  /-- The model's own field: what the host has put on the inputs and the FCB has not taken yet,
  oldest first. DESIGN CHOICE, log entry 1. -/
  input : List PortInput
deriving DecidableEq, Repr

/-- The machine right after power-up and reset (R170 and the table of 10_state.md section 6). Nothing
has been emitted and nothing waits on the inputs. -/
def State.reset : State :=
  { chans := Vector.replicate 256 Channel.reset
    sq := .idle
    p := Latches.empty
    fault := none
    out := []
    input := [] }

/-- Why a step stops with a fault. -/
inductive Fault where
  /-- The FCB takes no step because FAULT holds BUF_FULL(c) (60_exceptions.md R159). Raised by
  `fetch` for every word after a FEED met a full buffer. Safe: it only removes steps. -/
  | bufFull (ch : Byte)
  /-- A rule read a latch that holds no value (93_implementation_defined.md I11). Raised by SENDID,
  DATA and an abort, in states no run reaches. Safe: it only removes steps. -/
  | emptyLatch (latch : LatchName)
deriving DecidableEq, Repr

/-- Why a step is refused. -/
inductive Refusal where
  /-- The instruction has no meaning in this model. Raised by an arm of `exec` that is not modelled
  yet; no arm is. Safe. -/
  | notModelled (mnemonic : String)
deriving DecidableEq, Repr

end Sys2Proof.Machine
end

