-- ==== Sys2Proof/Machine/Operands.lean ====
section
/-! DEFINITION. Values computed from fields: byte sequences by index (00_scope.md R10), 16-bit values
from bytes and back, and the INFO values of the command errors (60_exceptions.md R153). -/

namespace Sys2Proof.Machine

/-- `s[i]`, counted from 0 at the head (00_scope.md R10, 20_memory.md R42 Peek). Every rule reads
inside the sequence; the value outside it is never used. Log entry 9. -/
def peek (s : List Byte) (i : Nat) : Byte := s.getD i 0

/-- `s[i..j]`, both ends included, empty when j < i (00_scope.md R10). -/
def slice (s : List Byte) (i j : Nat) : List Byte := (s.drop i).take (j + 1 - i)

/-- A byte zero-extended to 16 bits (30_encoding.md R66). -/
def byteToHalf (x : Byte) : Half := x.setWidth 16

/-- Bits 7:0 of a 16-bit value. -/
def lowByte (v : Half) : Byte := v.setWidth 8

/-- Bits 15:8 of a 16-bit value. -/
def highByte (v : Half) : Byte := (v >>> 8).setWidth 8

/-- The 16-bit value sent as two bytes, low byte first: `lo | (hi << 8)` (20_memory.md R43). -/
def halfOfBytes (lo hi : Byte) : Half := byteToHalf lo ||| (byteToHalf hi <<< 8)

/-- `OP << 12`, the INFO of ERR_ILLEGAL and ERR_SEQUENCE (R153). -/
def infoOfOp (op : Nibble) : Half := op.setWidth 16 <<< 12

/-- `OP << 12 | k << 8`, the INFO of ERR_ABORTED: k is the open command's opcode (R153). -/
def infoOfAbort (op k : Nibble) : Half := infoOfOp op ||| (k.setWidth 16 <<< 8)

/-- `len << 8 | n`, the INFO of ERR_LEN_MISMATCH: the registry's length and the payload's (R153). -/
def infoOfLengths (len : Byte) (n : Nat) : Half := (byteToHalf len <<< 8) ||| BitVec.ofNat 16 n

end Sys2Proof.Machine
end

