-- ==== Sys2Proof/Machine/Checksum.lean ====
section
/-! DEFINITION. The Checksum Engine's functions (40_checksum.md R90 to R92): the reflected CRC-16 of
polynomial 0x1021, start value 0xFFFF, no final exclusive-or, seed byte folded last. -/

namespace Sys2Proof.Machine

/-- CRC_INIT (00_scope.md R6). -/
def crcInit : Half := 0xFFFF

/-- The one-byte step `crc_acc(c, x)` (R90). -/
def crcAcc (c : Half) (x : Byte) : Half :=
  let t : Byte := x ^^^ lowByte c
  let t : Byte := t ^^^ (t <<< 4)
  let t : Half := byteToHalf t
  (c >>> 8) ^^^ (t <<< 8) ^^^ (t <<< 3) ^^^ (t >>> 4)

/-- One bit of the bit-serial form (R90). -/
def crcBit (c : Half) : Half :=
  if c.getLsbD 0 then (c >>> 1) ^^^ 0x8408 else c >>> 1

/-- The bit-serial form of the one-byte step (R90). -/
def crcAccSerial (c : Half) (x : Byte) : Half := Nat.repeat crcBit 8 (c ^^^ byteToHalf x)

/-- The rolling fold `crc_seq(c, s)` (R91). -/
def crcSeq (c : Half) (s : List Byte) : Half := s.foldl crcAcc c

/-- `checksum(s, e)` (R92). -/
def checksum (s : List Byte) (e : Byte) : Half := crcAcc (crcSeq crcInit s) e

end Sys2Proof.Machine
end

