-- ==== Sys2Proof/Machine/Codec.lean ====
section
/-! DEFINITION. The Frame Codec (41_frame_codec.md): trying to decode the head of a buffer, encoding a
frame, and what makes a byte sequence a valid frame (30_encoding.md R60 to R65). -/

namespace Sys2Proof.Machine

/-- MARKER (00_scope.md R6). -/
def marker : Byte := 0xFE

/-- HDR, the bytes before the payload (00_scope.md R6). -/
def hdrLen : Nat := 6

/-- TRL, the bytes after the payload (00_scope.md R6). -/
def trlLen : Nat := 2

/-- The outcome of a decode attempt (R100). -/
inductive DecodeOutcome where
  /-- More bytes are needed; the buffer is kept. -/
  | need
  /-- The head byte is to be dropped, for this reason. -/
  | invalid (reason : DiscardReason)
  /-- The first `n` bytes are the frame. -/
  | decoded (n : Nat) (frame : List Byte)
deriving DecidableEq, Repr

/-- L, the payload length a frame's LEN byte claims. -/
def frameL (f : List Byte) : Nat := (peek f 1).toNat

/-- `rxcrc(F)`, the checksum a frame carries (30_encoding.md R63). -/
def rxCrc (f : List Byte) : Half :=
  halfOfBytes (peek f (6 + frameL f)) (peek f (7 + frameL f))

/-- `crcFrame(F, seed)`: the checksum over LEN to the last payload byte, then the seed
(30_encoding.md R64). -/
def crcFrame (f : List Byte) (seed : Byte) : Half := checksum (slice f 1 (5 + frameL f)) seed

/-- `tryDecode(b)`, its checks in the order of R101 and R102. -/
def tryDecode (cfg : Config) (b : List Byte) : DecodeOutcome :=
  if b.length = 0 then .need
  else if peek b 0 ≠ marker then .invalid .notMarker
  else if b.length < hdrLen then .need
  else if b.length < hdrLen + frameL b + trlLen then .need
  else
    match cfg.reg (peek b 5) with
    | none => .invalid .unknownId
    | some e =>
      if e.len ≠ peek b 1 then .invalid .lenMismatch
      else if crcFrame b e.seed ≠ rxCrc b then .invalid .crcMismatch
      else if cfg.unpackOk (peek b 5) (slice b 6 (5 + frameL b)) = false then .invalid .unpackFail
      else .decoded (8 + frameL b) (slice b 0 (7 + frameL b))

/-- `encodeFrame(msgid, sysid, compid, seq, p, seed)` (R106). -/
def encodeFrame (msgid sysid compid seq : Byte) (p : List Byte) (seed : Byte) : List Byte :=
  let l := p.length
  let f := [marker, BitVec.ofNat 8 l, seq, sysid, compid, msgid] ++ p
  let c := checksum (slice f 1 (5 + l)) seed
  f ++ [lowByte c, highByte c]

/-- Channel mode, a function of the buffer (10_state.md R24). `resyncing` stands for a buffer whose
head a drain has still to decide; it holds at no quiescent state. -/
inductive ChannelMode where
  | idle
  | accumulating
  | resyncing
deriving DecidableEq, Repr

/-- The mode of a channel with buffer `b` (10_state.md R24). -/
def channelMode (cfg : Config) (b : List Byte) : ChannelMode :=
  if b = [] then .idle
  else if tryDecode cfg b = .need then .accumulating
  else .resyncing

end Sys2Proof.Machine
end

