-- ==== Sys2Proof/Syntax.lean ====
section
/-! DEFINITION. The command words as syntax (30_encoding.md R66 to R72), one constructor per row of
opcode_table.json, and the lines of the assembler language (R76, R77). -/

namespace Sys2Proof

/-- A legal command word. Each operand has exactly the width of its field (30_encoding.md R66), so
every term of this type is a well-formed instruction. -/
inductive Instr where
  /-- Format N: the word of 32 zero bits (R67). -/
  | nop
  /-- Format F: one byte received on channel `ch` (R68). -/
  | feed (ch byte : Byte)
  /-- Format S: the header of a SEND of `plen` payload bytes (R69). -/
  | send (ch msgid plen : Byte)
  /-- Format I: the second word of a SEND (R70). -/
  | sendid (sysid compid : Byte)
  /-- Format D: one byte of an open SEND or CRC (R71). -/
  | data (byte : Byte)
  /-- Format C: the header of a CRC over `n` bytes, with the seed byte to fold last (R72). -/
  | crc (seed : Byte) (n : Half)
deriving DecidableEq, Repr

/-- One line of assembler source, its numbers as written: the six commands (30_encoding.md R76) and
the three pseudo-commands (R77). A number need not fit its field here; `AsmLine.wellFormed` checks
that. -/
inductive AsmLine where
  | nop
  | feed (ch byte : Nat)
  | send (ch msgid plen : Nat)
  | sendid (sysid compid : Nat)
  | data (byte : Nat)
  | crc (seed n : Nat)
  | feeds (ch : Nat) (bytes : List Nat)
  | sendmsg (ch msgid sysid compid : Nat) (payload : List Nat)
  | crcof (seed : Nat) (bytes : List Nat)
deriving DecidableEq, Repr

end Sys2Proof
end

