-- ==== Sys2Proof/Decode.lean ====
section
/-! DEFINITION. The command words of the input port (30_encoding.md R66 to R74): the decoder, total
and refusing by name; after it the encoder, and the opcode table both are written from. -/

namespace Sys2Proof

/-- Why a word is illegal (30_encoding.md R74). The machine acts alike on all of them; the names are
the model's. -/
inductive IllegalWord where
  /-- OP is 0x6 to 0xF. -/
  | reservedOp
  /-- RSV is not 0. -/
  | reservedBits
  /-- A field its format marks "must be 0" is not 0. -/
  | mustBeZero
  /-- OP is 0x0 and the word is not 0. -/
  | nonzeroNop
deriving DecidableEq, Repr

/-- OP, bits 31:28 of a command word (R66). -/
def fieldOp (w : Word) : Nibble := w.extractLsb' 28 4

/-- RSV, bits 27:24 (R66). -/
def fieldRsv (w : Word) : Nibble := w.extractLsb' 24 4

/-- The first operand A, bits 23:16 (R66). -/
def fieldA (w : Word) : Byte := w.extractLsb' 16 8

/-- The second operand B, bits 15:8 (R66). -/
def fieldB (w : Word) : Byte := w.extractLsb' 8 8

/-- The third operand C, bits 7:0 (R66). -/
def fieldC (w : Word) : Byte := w.extractLsb' 0 8

/-- The count N of format C, bits 15:0 (R72). -/
def fieldN (w : Word) : Half := w.extractLsb' 0 16

/-- The command a word stands for, or why it is illegal (R74). -/
def decode (w : Word) : Except IllegalWord Instr :=
  if w = 0x00000000 then .ok .nop
  else if fieldRsv w ≠ 0 then .error .reservedBits
  else if fieldOp w = 0x0 then .error .nonzeroNop
  else if fieldOp w = 0x1 then
    if fieldB w = 0 then .ok (.feed (fieldA w) (fieldC w)) else .error .mustBeZero
  else if fieldOp w = 0x2 then .ok (.send (fieldA w) (fieldB w) (fieldC w))
  else if fieldOp w = 0x3 then
    if fieldA w = 0 then .ok (.sendid (fieldB w) (fieldC w)) else .error .mustBeZero
  else if fieldOp w = 0x4 then
    if fieldA w = 0 ∧ fieldB w = 0 then .ok (.data (fieldC w)) else .error .mustBeZero
  else if fieldOp w = 0x5 then .ok (.crc (fieldA w) (fieldN w))
  else .error .reservedOp

/-- The decoder on a row of opcode_table.json: the low `nbits` bits of `w` as a command word, the
bits above them 0. -/
def decodeTableWord (nbits w : Nat) : Option Instr :=
  match decode (BitVec.ofNat 32 (w % 2 ^ nbits)) with
  | .ok i => some i
  | .error _ => none

/-- A command's opcode, OP of the opcode map (R73). -/
def Instr.opcode : Instr → Nibble
  | .nop => 0x0
  | .feed _ _ => 0x1
  | .send _ _ _ => 0x2
  | .sendid _ _ => 0x3
  | .data _ => 0x4
  | .crc _ _ => 0x5

/-- The word of the common layout, RSV = 0: `op << 28 | a << 16 | b << 8 | c` (R66, R76). -/
def commandWord (op : Nibble) (a b c : Byte) : Word :=
  (op.setWidth 32 <<< 28) ||| (a.setWidth 32 <<< 16) ||| (b.setWidth 32 <<< 8) ||| c.setWidth 32

/-- The word of a command (R67 to R72). -/
def encode : Instr → Word
  | .nop => 0x00000000
  | .feed ch byte => commandWord 0x1 ch 0 byte
  | .send ch msgid plen => commandWord 0x2 ch msgid plen
  | .sendid sysid compid => commandWord 0x3 0 sysid compid
  | .data byte => commandWord 0x4 0 0 byte
  | .crc seed n => commandWord 0x5 seed 0 0 ||| n.setWidth 32

/-- A row of opcode_table.json: a word matches when its bits under `mask` are `pattern`. -/
structure OpcodeRow where
  mnemonic : String
  pattern  : Word
  mask     : Word
deriving DecidableEq, Repr

/-- The word matches the row under the row's mask. -/
def OpcodeRow.hits (r : OpcodeRow) (w : Word) : Bool := w &&& r.mask = r.pattern

/-- opcode_table.json, row by row. -/
def opcodeTable : List OpcodeRow :=
  [ ⟨"NOP",    0x00000000, 0xFFFFFFFF⟩,
    ⟨"FEED",   0x10000000, 0xFF00FF00⟩,
    ⟨"SEND",   0x20000000, 0xFF000000⟩,
    ⟨"SENDID", 0x30000000, 0xFFFF0000⟩,
    ⟨"DATA",   0x40000000, 0xFFFFFF00⟩,
    ⟨"CRC",    0x50000000, 0xFF000000⟩ ]

/-- The mnemonic of a command in opcode_table.json. -/
def Instr.mnemonic : Instr → String
  | .nop => "NOP"
  | .feed _ _ => "FEED"
  | .send _ _ _ => "SEND"
  | .sendid _ _ => "SENDID"
  | .data _ => "DATA"
  | .crc _ _ => "CRC"

end Sys2Proof
end

