-- ==== Sys2Proof/Machine/Flags.lean ====
section
/-! DEFINITION. The FCB has no condition flags (10_state.md R30), so no command computes one. What an
instruction reports stands in the events' codes, which this file gives. -/

namespace Sys2Proof.Machine

/-- The CODE of a discard reason (60_exceptions.md R152). -/
def discardCode : DiscardReason → Nibble
  | .notMarker => 0x1
  | .unknownId => 0x2
  | .lenMismatch => 0x3
  | .crcMismatch => 0x4
  | .unpackFail => 0x5

/-- The CODE of a command error (60_exceptions.md R153). -/
def errorCode : ErrorCode → Nibble
  | .illegal => 0x1
  | .sequence => 0x2
  | .aborted => 0x3
  | .channel => 0x4
  | .unknownMsgid => 0x5
  | .lenMismatch => 0x6
  | .overflow => 0x7

end Sys2Proof.Machine
end

