-- ==== Sys2Proof/Machine/Ops.lean ====
section
/-! DEFINITION. The named operations over the state: the channel file and its buffer primitives
(20_memory.md R42), emitting events, the command errors that stand in the place of exceptions
(60_exceptions.md R150, R153), reset (70_reset_and_hazards.md R170), and taking the next input. -/

namespace Sys2Proof.Machine

/-- BUF_DEPTH, the capacity of a receive buffer (00_scope.md R7). -/
def bufDepth : Nat := 263

/-- PAY_DEPTH, the capacity of the payload latch (00_scope.md R7). -/
def payDepth : Nat := 255

/-- What an instruction answers. -/
abbrev Answer := Host.Outcome State Fault Refusal

/-! ### Reading and writing the state -/

/-- Channel c's entry of the channel file. -/
def State.chan (s : State) (c : Byte) : Channel := s.chans[c.toNat]'(c.isLt)

/-- Writing channel c's entry. -/
def State.setChan (s : State) (c : Byte) (v : Channel) : State :=
  { s with chans := s.chans.set c.toNat v c.isLt }

/-- BUF[c]. -/
def State.buf (s : State) (c : Byte) : List Byte := (s.chan c).buf

/-- `BUF[c] <- b`. -/
def State.setBuf (s : State) (c : Byte) (b : List Byte) : State :=
  s.setChan c { s.chan c with buf := b }

/-- TXSEQ[c]. -/
def State.txseq (s : State) (c : Byte) : Byte := (s.chan c).txseq

/-- `TXSEQ[c] <- v`. -/
def State.setTxseq (s : State) (c : Byte) (v : Byte) : State :=
  s.setChan c { s.chan c with txseq := v }

/-- `SQ <- q`. -/
def State.setSq (s : State) (q : Sequencer) : State := { s with sq := q }

/-- `P <- l`. -/
def State.setLatches (s : State) (l : Latches) : State := { s with p := l }

/-- `FAULT <- BUF_FULL(c)`, never cleared by a command (10_state.md R28, 60_exceptions.md R159). -/
def State.setFault (s : State) (f : FaultRecord) : State := { s with fault := some f }

/-- What is left on the inputs once the first entry is taken. -/
def State.setInput (s : State) (rest : List PortInput) : State := { s with input := rest }

/-- `emit E`, for events in the order they are emitted (00_scope.md R11, 10_state.md R31). -/
def State.emits (s : State) (es : List Event) : State := { s with out := s.out ++ es }

/-- `SQ <- IDLE; P <- (no values)`: the end of a multi-word command. -/
def State.closeCommand (s : State) : State := (s.setSq .idle).setLatches Latches.empty

/-- Reading a latch: its value, or the model fault of a latch that holds none
(93_implementation_defined.md I11). -/
def readLatch {α : Type} (name : LatchName) (latch : Option α) (k : α → Answer) : Answer :=
  match latch with
  | some v => k v
  | none => .fault (.emptyLatch name)

/-- The latches that hold a value in sequencer state `q`, by the "valid in" column of 10_state.md R27;
the others hold none. -/
def Latches.validIn (q : Sequencer) (l : Latches) : Latches :=
  match q with
  | .idle => Latches.empty
  | .sendId => { Latches.empty with ch := l.ch, msgid := l.msgid, plen := l.plen }
  | .sendData =>
    { Latches.empty with
      ch := l.ch, msgid := l.msgid, plen := l.plen, sysid := l.sysid, compid := l.compid
      pay := l.pay }
  | .crcData => { Latches.empty with seed := l.seed, rem := l.rem, acc := l.acc }

/-- What the latches hold (R27): every rule reads them here. `State.p` is what the rules wrote last;
the two differ in SEND_ID only, where the header's `P.PAY <- []` (42_session.md R126) is written and
not yet held. Log entry 8. -/
def State.latches (s : State) : Latches := s.p.validIn s.sq

/-! ### Buffer primitives (20_memory.md R42) -/

/-- `Push` on a buffer: none when it is full. -/
def push (b : List Byte) (x : Byte) : Option (List Byte) :=
  if b.length = bufDepth then none else some (b ++ [x])

/-- `Drop(n)` on a buffer. -/
def dropHead (n : Nat) (b : List Byte) : List Byte := b.drop n

/-! ### Command errors -/

/-- `raise CmdError(code, ch, info)`: exactly one `EV_ERROR`, nothing else (60_exceptions.md R150). -/
def cmdError (code : ErrorCode) (ch : Byte) (info : Half) (s : State) : State :=
  s.emits [.error code ch info]

/-- ILLEGAL: an illegal word of opcode `op` with SQ = IDLE (42_session.md R122). -/
def illegal (op : Nibble) (s : State) : State := cmdError .illegal 0 (infoOfOp op) s

/-- SEQUENCE_ERROR: a legal SENDID or DATA with SQ = IDLE (42_session.md R130). -/
def sequenceError (op : Nibble) (s : State) : State := cmdError .sequence 0 (infoOfOp op) s

/-- What ABORT does once it knows the open command's opcode and its channel (42_session.md R131). -/
def abortWith (op k : Nibble) (ch : Byte) (s : State) : State :=
  cmdError .aborted ch (infoOfAbort op k) s.closeCommand

/-- ABORT: an unexpected word of opcode `op` inside an open command. The word is discarded
(42_session.md R131). -/
def abort (op : Nibble) (s : State) : Answer :=
  match s.sq with
  | .crcData => .next (abortWith op 0x5 0 s)
  | _ => readLatch .ch s.latches.ch fun ch => .next (abortWith op 0x2 ch s)

/-- A command that is legal only in IDLE: `k` there, an abort of the open command elsewhere
(42_session.md R120). -/
def whenIdle (op : Nibble) (s : State) (k : Answer) : Answer :=
  if s.sq = .idle then k else abort op s

/-- An illegal word of opcode `op`: ERR_ILLEGAL in IDLE, ERR_ABORTED inside a command
(30_encoding.md R74, 42_session.md R120). -/
def illegalWord (op : Nibble) (s : State) : Answer := whenIdle op s (.next (illegal op s))

/-! ### Reset and the inputs -/

/-- The reset input: every state element takes its reset value; events already emitted stay, and so
does what the host has sent and the FCB has not taken (70_reset_and_hazards.md R170; log entry 2). -/
def resetBlock (s : State) : State := { State.reset with out := s.out, input := s.input }

/-- The fault a step ends in when FAULT holds a record (60_exceptions.md R159). -/
def faultOfRecord : FaultRecord → Fault
  | .bufFull c => .bufFull c

/-- What a step finds to do. -/
inductive Fetched where
  /-- No word on the command port: the FCB waits (70_reset_and_hazards.md R170). -/
  | wait
  /-- The reset input was driven; the state after it. -/
  | reset (s : State)
  /-- FAULT is set: no step is taken (42_session.md R120). -/
  | stopped (f : Fault)
  /-- A legal word, and the state with it taken from the port. -/
  | command (i : Instr) (s : State)
  /-- An illegal word's opcode, and the state with the word taken from the port. -/
  | illegal (op : Nibble) (s : State)
deriving DecidableEq, Repr

/-- Taking the next input. Reset comes first, because only it clears FAULT (R170); then FAULT stops
everything (42_session.md R120); then one word is taken and classified (30_encoding.md R74). -/
def fetch (s : State) : Fetched :=
  match s.input with
  | .reset :: rest => .reset (resetBlock (s.setInput rest))
  | .word w :: rest =>
    match s.fault with
    | some f => .stopped (faultOfRecord f)
    | none =>
      match decode w with
      | .ok i => .command i (s.setInput rest)
      | .error _ => .illegal (fieldOp w) (s.setInput rest)
  | [] =>
    match s.fault with
    | some f => .stopped (faultOfRecord f)
    | none => .wait

/-- Sending a word: it is the next the FCB takes. -/
def sendWord (w : Word) (s : State) : State := s.setInput (.word w :: s.input)

end Sys2Proof.Machine
end

