-- ==== Sys2Proof/Machine/Feed.lean ====
section
/-! DEFINITION. NOP and FEED, with the drain loop (42_session.md R121, R123 to R125). -/

namespace Sys2Proof.Machine

/-- NOP: nothing, in every sequencer state (R121). -/
def execNop (s : State) : Answer := .next s

/-- DRAIN(c) on a buffer, for at most `fuel` rounds: the events in loop order and what stays buffered
(R124). A round that does not return drops at least one byte (R125). -/
def drainLoop (cfg : Config) (c : Byte) : Nat → List Byte → List Event × List Byte
  | 0, b => ([], b)
  | _ + 1, [] => ([], [])
  | fuel + 1, x :: b =>
    match tryDecode cfg (x :: b) with
    | .need => ([], x :: b)
    | .invalid r =>
      let rest := drainLoop cfg c fuel (dropHead 1 (x :: b))
      (.discard c r x :: rest.1, rest.2)
    | .decoded n f =>
      let rest := drainLoop cfg c fuel (dropHead n (x :: b))
      (.decoded c f :: rest.1, rest.2)

/-- DRAIN(c) run to its end: as many rounds as there are bytes are enough (R125). -/
def drain (cfg : Config) (c : Byte) (b : List Byte) : List Event × List Byte :=
  drainLoop cfg c b.length b

/-- `BUF[c] <- b; DRAIN(c)`. -/
def drainInto (cfg : Config) (c : Byte) (b : List Byte) (s : State) : State :=
  (s.setBuf c (drain cfg c b).2).emits (drain cfg c b).1

/-- FEED with SQ = IDLE (R123): the channel check, the push and the drain. A push onto a full buffer
sets FAULT and changes nothing else (20_memory.md R42, 10_state.md R28; log entry 7). -/
def feed (cfg : Config) (c x : Byte) (s : State) : State :=
  if cfg.nch ≤ c.toNat then cmdError .channel c 0x1000 s
  else
    match push (s.buf c) x with
    | none => s.setFault (.bufFull c)
    | some b => drainInto cfg c b s

/-- FEED ch, byte, in any sequencer state, under a configuration (R120, R123, R131). -/
def feedIn (cfg : Config) (ch byte : Byte) (s : State) : Answer :=
  whenIdle 0x1 s (.next (feed cfg ch byte s))

/-- The meaning of FEED. -/
def execFeed (ch byte : Byte) (s : State) : Answer := feedIn Config.chip ch byte s

end Sys2Proof.Machine
end

