-- ==== Sys2Proof/Machine/Crc.lean ====
section
/-! DEFINITION. The CRC command (40_checksum.md R95, R96). -/

namespace Sys2Proof.Machine

/-- CRC_COMPLETE, with what `P.ACC` and `P.SEED` hold (R96). -/
def crcComplete (acc : Half) (seed : Byte) (s : State) : State :=
  s.closeCommand.emits [.crc (crcAcc acc seed)]

/-- The header with SQ = IDLE: the latches, then completion at once or CRC_DATA (R95). -/
def crcHeader (seed : Byte) (n : Half) (s : State) : State :=
  let t := s.setLatches { s.p with seed := some seed, acc := some crcInit, rem := some n }
  if n = 0 then crcComplete crcInit seed t else t.setSq .crcData

/-- The meaning of CRC (R95; R131 inside an open command). -/
def execCrc (seed : Byte) (n : Half) (s : State) : Answer :=
  whenIdle 0x5 s (.next (crcHeader seed n s))

/-- A DATA word in CRC_DATA: one fold step, and completion when the count reaches 0
(42_session.md R128). -/
def crcData (x : Byte) (s : State) : Answer :=
  readLatch .acc s.latches.acc fun acc =>
  readLatch .rem s.latches.rem fun rem =>
  let acc' := crcAcc acc x
  let rem' := rem - 1
  let t := s.setLatches { s.p with acc := some acc', rem := some rem' }
  if rem' = 0 then readLatch .seed s.latches.seed fun seed => .next (crcComplete acc' seed t)
  else .next t

end Sys2Proof.Machine
end

