-- ==== Sys2Proof/Machine/Send.lean ====
section
/-! DEFINITION. SEND, SENDID and DATA, with the completion of a SEND (42_session.md R126 to R129). -/

namespace Sys2Proof.Machine

/-- The header with SQ = IDLE (R126). -/
def sendHeader (ch msgid plen : Byte) (s : State) : State :=
  (s.setLatches
    { s.p with ch := some ch, msgid := some msgid, plen := some plen, pay := some [] }).setSq .sendId

/-- The meaning of SEND (R126; R131 inside an open command). -/
def execSend (ch msgid plen : Byte) (s : State) : Answer :=
  whenIdle 0x2 s (.next (sendHeader ch msgid plen s))

/-- SEND_COMPLETE, with what the latches hold: the three checks in order, then the frame with the
counter's value before its increment (R129). -/
def sendResult (cfg : Config) (c id sy co : Byte) (p : List Byte) (s : State) : State :=
  let t := s.closeCommand
  if cfg.nch ≤ c.toNat then cmdError .channel c 0x2000 t
  else
    match cfg.reg id with
    | none => cmdError .unknownMsgid c (byteToHalf id) t
    | some e =>
      if e.len.toNat ≠ p.length then cmdError .lenMismatch c (infoOfLengths e.len p.length) t
      else
        (t.emits [.sent c (encodeFrame id sy co (s.txseq c) p e.seed)]).setTxseq c (s.txseq c + 1)

/-- SEND_COMPLETE reading its latches (R129). -/
def sendComplete (cfg : Config) (s : State) : Answer :=
  readLatch .ch s.latches.ch fun c =>
  readLatch .msgid s.latches.msgid fun id =>
  readLatch .pay s.latches.pay fun p =>
  readLatch .sysid s.latches.sysid fun sy =>
  readLatch .compid s.latches.compid fun co =>
  .next (sendResult cfg c id sy co p s)

/-- SENDID in SEND_ID: the two ids, then completion at once or SEND_DATA (R127). SEND_COMPLETE reads
P.SYSID, P.COMPID and P.PAY, which are held in SEND_DATA only (10_state.md R27), so it starts there; it
leaves IDLE either way. Log entry 8. -/
def sendIds (cfg : Config) (sysid compid : Byte) (s : State) : Answer :=
  readLatch .plen s.latches.plen fun plen =>
  let t := (s.setLatches { s.p with sysid := some sysid, compid := some compid }).setSq .sendData
  if plen = 0 then sendComplete cfg t else .next t

/-- SENDID in any sequencer state, under a configuration (R120, R127, R130, R131). -/
def sendidIn (cfg : Config) (sysid compid : Byte) (s : State) : Answer :=
  match s.sq with
  | .idle => .next (sequenceError 0x3 s)
  | .sendId => sendIds cfg sysid compid s
  | .sendData => abort 0x3 s
  | .crcData => abort 0x3 s

/-- The meaning of SENDID. -/
def execSendid (sysid compid : Byte) (s : State) : Answer := sendidIn Config.chip sysid compid s

/-- A DATA word in SEND_DATA: one payload byte, and completion at the PLEN-th (R128). -/
def sendData (cfg : Config) (x : Byte) (s : State) : Answer :=
  readLatch .pay s.latches.pay fun p =>
  readLatch .plen s.latches.plen fun plen =>
  let t := s.setLatches { s.p with pay := some (p ++ [x]) }
  if (p ++ [x]).length = plen.toNat then sendComplete cfg t else .next t

/-- DATA in any sequencer state, under a configuration (R120, R128, R130, R131). -/
def dataIn (cfg : Config) (x : Byte) (s : State) : Answer :=
  match s.sq with
  | .idle => .next (sequenceError 0x4 s)
  | .sendId => abort 0x4 s
  | .sendData => sendData cfg x s
  | .crcData => crcData x s

/-- The meaning of DATA. -/
def execData (byte : Byte) (s : State) : Answer := dataIn Config.chip byte s

end Sys2Proof.Machine
end

