-- ==== Sys2Proof/Machine/Dispatch.lean ====
section
/-! DEFINITION. The meaning of every legal command word (42_session.md R120). FAULT is checked before
a word is taken, by `fetch`. -/

namespace Sys2Proof.Machine

def exec (i : Instr) (s : State) : Host.Outcome State Fault Refusal :=
  match i with
  | .nop => Sys2Proof.Machine.execNop s
  | .feed ch byte => Sys2Proof.Machine.execFeed ch byte s
  | .send ch msgid plen => Sys2Proof.Machine.execSend ch msgid plen s
  | .sendid sysid compid => Sys2Proof.Machine.execSendid sysid compid s
  | .data byte => Sys2Proof.Machine.execData byte s
  | .crc seed n => Sys2Proof.Machine.execCrc seed n s

end Sys2Proof.Machine
end

