-- ==== Sys2Proof/Machine/Step.lean ====
section
/-! DEFINITION. One step of the FCB: one input taken and its whole effect (00_scope.md R12,
20_memory.md R46). -/

namespace Sys2Proof.Machine

/-- One step. With nothing on the inputs the FCB waits (70_reset_and_hazards.md R170). -/
def step (s : State) : Host.Outcome State Fault Refusal :=
  match fetch s with
  | .wait => .next s
  | .reset t => .next t
  | .stopped f => .fault f
  | .command i t => exec i t
  | .illegal op t => illegalWord op t

/-- The state with the low `nbits` bits of `w` as the next command word on the port. -/
def State.withFetchWord (s : State) (nbits w : Nat) : State :=
  sendWord (BitVec.ofNat 32 (w % 2 ^ nbits)) s

end Sys2Proof.Machine
end

