-- ==== Sys2Proof/Machine/Session.lean ====
section
/-! DEFINITION. Sequences of commands under any configuration, the pseudo-commands (30_encoding.md R77)
and the source's chunked feed (42_session.md R132). -/

namespace Sys2Proof.Machine

/-- The meaning of a command under a configuration. `exec` is this under the machine's own. -/
def execIn (cfg : Config) (i : Instr) (s : State) : Answer :=
  match i with
  | .nop => execNop s
  | .feed ch byte => feedIn cfg ch byte s
  | .send ch msgid plen => execSend ch msgid plen s
  | .sendid sysid compid => sendidIn cfg sysid compid s
  | .data byte => dataIn cfg byte s
  | .crc seed n => execCrc seed n s

/-- Commands one after the other, stopping at the first fault or refusal (20_memory.md R48). -/
def execAllIn (cfg : Config) : List Instr → State → Answer
  | [], s => .next s
  | i :: is, s =>
    match execIn cfg i s with
    | .next t => execAllIn cfg is t
    | .fault f => .fault f
    | .refused r => .refused r

/-- `FEEDS ch, [b0, ..., bk-1]` (R77). -/
def feeds (ch : Byte) (bytes : List Byte) : List Instr := bytes.map (.feed ch)

/-- `SENDMSG ch, msgid, sysid, compid, [p0, ..., pk-1]`, k ≤ 255 (R77). -/
def sendmsg (ch msgid sysid compid : Byte) (payload : List Byte) : List Instr :=
  .send ch msgid (BitVec.ofNat 8 payload.length) :: .sendid sysid compid :: payload.map .data

/-- `CRCOF seed, [b0, ..., bn-1]`, n ≤ 65535 (R77). -/
def crcof (seed : Byte) (bytes : List Byte) : List Instr :=
  .crc seed (BitVec.ofNat 16 bytes.length) :: bytes.map .data

/-- The source's `feed(channel, newBytes)`: the whole chunk appended at once, then one drain (R132). -/
def feedChunk (cfg : Config) (ch : Byte) (bytes : List Byte) (s : State) : State :=
  drainInto cfg ch (s.buf ch ++ bytes) s

end Sys2Proof.Machine
end

