-- ==== Sys2Proof/WellFormed.lean ====
section
/-! DEFINITION. Well-formed assembler lines: "each must fit its field (8 bits, or 16 bits for the CRC
count), and a number that does not fit is an assembly error" (30_encoding.md R76), with the limits of
the pseudo-commands' lists (R77). An `Instr` needs no check: its operands are bit vectors of exactly
their fields' widths. -/

namespace Sys2Proof

/-- The number fits an 8-bit field. -/
def fitsByte (n : Nat) : Bool := n < 2 ^ 8

/-- The number fits a 16-bit field. -/
def fitsHalf (n : Nat) : Bool := n < 2 ^ 16

/-- The line has no number its field cannot hold (R76) and no list longer than its count field can
say: k ≤ 255 for SENDMSG and n ≤ 65535 for CRCOF (R77). -/
def AsmLine.wellFormed : AsmLine → Bool
  | .nop => true
  | .feed ch byte => fitsByte ch && fitsByte byte
  | .send ch msgid plen => fitsByte ch && fitsByte msgid && fitsByte plen
  | .sendid sysid compid => fitsByte sysid && fitsByte compid
  | .data byte => fitsByte byte
  | .crc seed n => fitsByte seed && fitsHalf n
  | .feeds ch bytes => fitsByte ch && bytes.all fitsByte
  | .sendmsg ch msgid sysid compid payload =>
    fitsByte ch && fitsByte msgid && fitsByte sysid && fitsByte compid &&
      payload.all fitsByte && fitsByte payload.length
  | .crcof seed bytes => fitsByte seed && bytes.all fitsByte && fitsHalf bytes.length

end Sys2Proof
end

