-- ==== Sys2Proof/Machine/Assembler.lean ====
section
/-! DEFINITION. The assembler (30_encoding.md R76, R77): from the characters of a line to its
numbers, and from a line to command words. What the spec leaves open about blanks is log entry 10. -/

namespace Sys2Proof.Machine

/-- The commands of a well-formed line; an ill-formed line is an assembly error, its numbers never
truncated (R76, R77). -/
def assemble (l : AsmLine) : Option (List Instr) :=
  if l.wellFormed then
    match l with
    | .nop => some [.nop]
    | .feed ch byte => some [.feed (BitVec.ofNat 8 ch) (BitVec.ofNat 8 byte)]
    | .send ch msgid plen =>
      some [.send (BitVec.ofNat 8 ch) (BitVec.ofNat 8 msgid) (BitVec.ofNat 8 plen)]
    | .sendid sysid compid => some [.sendid (BitVec.ofNat 8 sysid) (BitVec.ofNat 8 compid)]
    | .data byte => some [.data (BitVec.ofNat 8 byte)]
    | .crc seed n => some [.crc (BitVec.ofNat 8 seed) (BitVec.ofNat 16 n)]
    | .feeds ch bytes => some (feeds (BitVec.ofNat 8 ch) (bytes.map (BitVec.ofNat 8)))
    | .sendmsg ch msgid sysid compid payload =>
      some (sendmsg (BitVec.ofNat 8 ch) (BitVec.ofNat 8 msgid) (BitVec.ofNat 8 sysid)
        (BitVec.ofNat 8 compid) (payload.map (BitVec.ofNat 8)))
    | .crcof seed bytes => some (crcof (BitVec.ofNat 8 seed) (bytes.map (BitVec.ofNat 8)))
  else none

/-- The command words of a line. -/
def assembleWords (l : AsmLine) : Option (List Word) := (assemble l).map (·.map encode)

/-! ### From characters to a line -/

/-- A blank, which may stand around the parts of a line. -/
def isBlank (c : Char) : Bool := c = ' ' || c = '\t'

/-- The characters without the blanks at both ends. -/
def trim (cs : List Char) : List Char :=
  ((cs.dropWhile isBlank).reverse.dropWhile isBlank).reverse

/-- A digit's value in the given base. -/
def digitValue (base : Nat) (c : Char) : Option Nat :=
  let n := c.toNat
  let v :=
    if 48 ≤ n ∧ n ≤ 57 then n - 48
    else if 97 ≤ n ∧ n ≤ 102 then n - 87
    else if 65 ≤ n ∧ n ≤ 70 then n - 55
    else base
  if v < base then some v else none

/-- The number the digits write, most significant first, after `acc`. -/
def digitsValue (base : Nat) : Nat → List Char → Option Nat
  | acc, [] => some acc
  | acc, c :: cs =>
    match digitValue base c with
    | some v => digitsValue base (acc * base + v) cs
    | none => none

/-- A decimal or 0x-prefixed hexadecimal number of at least one digit (R76). -/
def parseNumber (cs : List Char) : Option Nat :=
  match cs with
  | [] => none
  | '0' :: 'x' :: ds => if ds = [] then none else digitsValue 16 0 ds
  | ds => digitsValue 10 0 ds

/-- The parts between commas. -/
def splitCommas : List Char → List (List Char)
  | [] => [[]]
  | c :: cs =>
    match splitCommas cs with
    | [] => [[c]]
    | part :: parts => if c = ',' then [] :: part :: parts else (c :: part) :: parts

/-- Every number of a list of parts, or none if one is not a number. -/
def parseParts : List (List Char) → Option (List Nat)
  | [] => some []
  | part :: parts =>
    match parseNumber (trim part), parseParts parts with
    | some n, some ns => some (n :: ns)
    | _, _ => none

/-- Numbers separated by commas; none at all is the empty list. -/
def parseNumbers (cs : List Char) : Option (List Nat) :=
  if trim cs = [] then some [] else parseParts (splitCommas cs)

/-- The operands: plain numbers, then a bracketed list if there is one. The list follows a comma. -/
def parseOperands (cs : List Char) : Option (List Nat × Option (List Nat)) :=
  if cs.contains '[' then
    let before := trim (cs.takeWhile (· ≠ '['))
    let inside := trim ((cs.dropWhile (· ≠ '[')).drop 1)
    if before.getLast? = some ',' ∧ inside.getLast? = some ']' then
      match parseNumbers before.dropLast, parseNumbers inside.dropLast with
      | some ns, some bytes => some (ns, some bytes)
      | _, _ => none
    else none
  else (parseNumbers cs).map fun ns => (ns, none)

/-- The line of a mnemonic and its operands (R76, R77). -/
def lineOf (mnemonic : List Char) (ns : List Nat) (bytes : Option (List Nat)) : Option AsmLine :=
  match ns, bytes with
  | [], none => if mnemonic = ['N', 'O', 'P'] then some .nop else none
  | [a], none => if mnemonic = ['D', 'A', 'T', 'A'] then some (.data a) else none
  | [a, b], none =>
    if mnemonic = ['F', 'E', 'E', 'D'] then some (.feed a b)
    else if mnemonic = ['S', 'E', 'N', 'D', 'I', 'D'] then some (.sendid a b)
    else if mnemonic = ['C', 'R', 'C'] then some (.crc a b)
    else none
  | [a, b, c], none => if mnemonic = ['S', 'E', 'N', 'D'] then some (.send a b c) else none
  | [a], some bs =>
    if mnemonic = ['F', 'E', 'E', 'D', 'S'] then some (.feeds a bs)
    else if mnemonic = ['C', 'R', 'C', 'O', 'F'] then some (.crcof a bs)
    else none
  | [a, b, c, d], some bs =>
    if mnemonic = ['S', 'E', 'N', 'D', 'M', 'S', 'G'] then some (.sendmsg a b c d bs) else none
  | _, _ => none

/-- A line of source: the mnemonic, then its operands separated by commas (R76, R77). -/
def parseLine (cs : List Char) : Option AsmLine :=
  let line := trim cs
  let mnemonic := line.takeWhile (fun c => !isBlank c)
  match parseOperands (line.dropWhile (fun c => !isBlank c)) with
  | some (ns, bytes) => lineOf mnemonic ns bytes
  | none => none

end Sys2Proof.Machine
end

