-- ==== Sys2Proof/Machine/EventWords.lean ====
section
/-! DEFINITION. The 32-bit event words of the output port (30_encoding.md R80 to R86). -/

namespace Sys2Proof.Machine

/-- A header word: KIND, CODE, CH, INFO (R80). -/
def eventHeader (kind code : Nibble) (ch : Byte) (info : Half) : Word :=
  (kind.setWidth 32 <<< 28) ||| (code.setWidth 32 <<< 24) ||| (ch.setWidth 32 <<< 16) |||
    info.setWidth 32

/-- A BYTE continuation word (R86). -/
def byteWord (x : Byte) : Word := 0xB0000000 ||| x.setWidth 32

/-- An event's words, in the order they leave the port (R81 to R85). -/
def eventWords : Event → List Word
  | .decoded ch f => eventHeader 0x1 0x0 ch (BitVec.ofNat 16 f.length) :: f.map byteWord
  | .discard ch r x => [eventHeader 0x2 (discardCode r) ch (x.setWidth 16)]
  | .sent ch f => eventHeader 0x3 0x0 ch (BitVec.ofNat 16 f.length) :: f.map byteWord
  | .crc v => [eventHeader 0x4 0x0 0x00 v]
  | .error code ch info => [eventHeader 0xE (errorCode code) ch info]

/-- The output port's words for a stream of events, in order (10_state.md R31). -/
def streamWords (es : List Event) : List Word := es.flatMap eventWords

end Sys2Proof.Machine
end

