-- ==== Sys2Proof/Safety.lean ====
section
/-! DEFINITION. The terms claims are stated in: valid frames (30_encoding.md R65), the drain as a
relation (42_session.md R124), the end of a SEND as clauses (R129), the invariants of the state
(10_state.md R25, R27), and legal events (30_encoding.md R80). -/

namespace Sys2Proof.Machine

/-- A valid frame under a configuration (30_encoding.md R65). -/
def ValidFrame (cfg : Config) (f : List Byte) : Prop :=
  peek f 0 = 0xFE ∧ f.length = 8 + frameL f ∧
    ∃ e, cfg.reg (peek f 5) = some e ∧ e.len = peek f 1 ∧ crcFrame f e.seed = rxCrc f ∧
      cfg.unpackOk (peek f 5) (slice f 6 (5 + frameL f)) = true

/-- `DrainRuns cfg c b es b'`: the loop of R124 on channel c, started on buffer `b`, emits `es` and
returns with buffer `b'`. -/
inductive DrainRuns (cfg : Config) (c : Byte) : List Byte → List Event → List Byte → Prop where
  | empty : DrainRuns cfg c [] [] []
  | need {b} : b ≠ [] → tryDecode cfg b = .need → DrainRuns cfg c b [] b
  | invalid {x b r es b'} : tryDecode cfg (x :: b) = .invalid r → DrainRuns cfg c b es b' →
      DrainRuns cfg c (x :: b) (.discard c r x :: es) b'
  | decoded {b n f es b'} : b ≠ [] → tryDecode cfg b = .decoded n f →
      DrainRuns cfg c (b.drop n) es b' → DrainRuns cfg c b (.decoded c f :: es) b'

/-- A buffer no drain would change (10_state.md R25). -/
abbrev Quiescent (cfg : Config) (b : List Byte) : Prop := b = [] ∨ tryDecode cfg b = .need

/-- `s` with its open command closed and one error emitted: nothing else differs. -/
def closedWithError (s : State) (code : ErrorCode) (ch : Byte) (info : Half) : State :=
  { s with sq := .idle, p := Latches.empty, out := s.out ++ [.error code ch info] }

/-- `SendEnds cfg c id sy co p s t`: `t` is what SEND_COMPLETE leaves of `s` when the latches hold
channel `c`, message id `id`, ids `sy` and `co` and payload `p` (42_session.md R129). -/
structure SendEnds (cfg : Config) (c id sy co : Byte) (p : List Byte) (s t : State) : Prop where
  badChannel : cfg.nch ≤ c.toNat → t = closedWithError s .channel c 0x2000
  unknownId : c.toNat < cfg.nch → cfg.reg id = none →
    t = closedWithError s .unknownMsgid c (id.setWidth 16)
  badLength : ∀ e, c.toNat < cfg.nch → cfg.reg id = some e → e.len.toNat ≠ p.length →
    t = closedWithError s .lenMismatch c ((e.len.setWidth 16 <<< 8) ||| BitVec.ofNat 16 p.length)
  sent : ∀ e, c.toNat < cfg.nch → cfg.reg id = some e → e.len.toNat = p.length →
    t.sq = .idle ∧ t.p = Latches.empty ∧ t.fault = s.fault ∧ t.input = s.input ∧
      t.out = s.out ++ [.sent c (encodeFrame id sy co (s.txseq c) p e.seed)] ∧
      (∀ d, t.buf d = s.buf d) ∧ t.txseq c = s.txseq c + 1 ∧ ∀ d, d ≠ c → t.txseq d = s.txseq d

/-- `k` steps of the machine, stopping at the first fault or refusal; `Host.Core.run` of its core
(`steps_eq_run`). -/
def steps : Nat → State → Answer
  | 0, s => .next s
  | k + 1, s =>
    match step s with
    | .next t => steps k t
    | .fault f => .fault f
    | .refused r => .refused r

/-! ### Invariants -/

/-- The latches hold a value exactly in the sequencer states 10_state.md R27 lists, with the payload
not yet complete and the count not yet 0. `P.PAY` is the empty sequence in SEND_ID, as the header
leaves it (42_session.md R126; log entry 8); `LatchesFit.validIn` says it is the one difference. -/
def LatchesFit : Sequencer → Latches → Prop
  | .idle, p => p = Latches.empty
  | .sendId, p => ∃ ch id n, p =
      { Latches.empty with ch := some ch, msgid := some id, plen := some n, pay := some [] }
  | .sendData, p => ∃ ch id n sy co pay, pay.length < n.toNat ∧ p =
      { Latches.empty with
        ch := some ch, msgid := some id, plen := some n, sysid := some sy, compid := some co
        pay := some pay }
  | .crcData, p => ∃ e r a, r ≠ 0 ∧ p =
      { Latches.empty with seed := some e, rem := some r, acc := some a }

/-- What holds between two commands of every run from reset: every channel is quiescent (10_state.md
R25), the latches fit the sequencer state (R27), no fault is recorded (R28), and entries that are no
channel hold their reset value (log entry 4). -/
structure Safe (s : State) : Prop where
  quiescent : ∀ c, Quiescent Config.chip (s.buf c)
  latches : LatchesFit s.sq s.p
  noFault : s.fault = none
  unused : ∀ c : Byte, Config.chip.nch ≤ c.toNat → s.chan c = Channel.reset

/-- The events the FCB may emit: those of the kinds and codes of 30_encoding.md R80 to R85 and
60_exceptions.md R152 and R153, with what those rules say of their fields. -/
def EventLegal (cfg : Config) : Event → Prop
  | .decoded ch f => ch.toNat < cfg.nch ∧ ValidFrame cfg f
  | .discard ch r x => ch.toNat < cfg.nch ∧ (r = .notMarker ↔ x ≠ 0xFE)
  | .sent ch f => ch.toNat < cfg.nch ∧ peek f 0 = 0xFE ∧ f.length = 8 + frameL f ∧
      ∃ e, cfg.reg (peek f 5) = some e ∧ e.len = peek f 1 ∧ crcFrame f e.seed = rxCrc f
  | .crc _ => True
  | .error code ch info =>
    match code with
    | .illegal => ch = 0 ∧ ∃ op : Nibble, info = op.setWidth 16 <<< 12
    | .sequence => ch = 0 ∧ (info = 0x3000 ∨ info = 0x4000)
    | .aborted => ∃ op : Nibble, info = (op.setWidth 16 <<< 12) ||| 0x0200 ∨
        (ch = 0 ∧ info = (op.setWidth 16 <<< 12) ||| 0x0500)
    | .channel => cfg.nch ≤ ch.toNat ∧ (info = 0x1000 ∨ info = 0x2000)
    | .unknownMsgid => ch.toNat < cfg.nch ∧ ∃ id : Byte, cfg.reg id = none ∧ info = id.setWidth 16
    | .lenMismatch => ch.toNat < cfg.nch ∧ ∃ (e : RegEntry) (plen id : Byte),
        cfg.reg id = some e ∧ e.len ≠ plen ∧
          info = (e.len.setWidth 16 <<< 8) ||| plen.setWidth 16
    | .overflow => False

/-- The word inside an open command that goes on with it (42_session.md R120). -/
def Expected : Sequencer → Word → Prop
  | .idle, _ => False
  | .sendId, w => ∃ sysid compid, decode w = .ok (.sendid sysid compid)
  | .sendData, w => ∃ x, decode w = .ok (.data x)
  | .crcData, w => ∃ x, decode w = .ok (.data x)

/-- The SEQ bytes of the frames sent on channel c, in order (42_session.md R133). -/
def sentSeqs (c : Byte) (es : List Event) : List Byte :=
  es.filterMap fun e =>
    match e with
    | .sent d f => if d = c then some (peek f 2) else none
    | .decoded _ _ => none
    | .discard _ _ _ => none
    | .crc _ => none
    | .error _ _ _ => none

/-- `n` sequence numbers from `q` on, modulo 256. -/
def seqsFrom (q : Byte) : Nat → List Byte
  | 0 => []
  | n + 1 => q :: seqsFrom (q + 1) n

/-- Is the event an `EV_ERROR`? -/
def Event.isError : Event → Bool
  | .error _ _ _ => true
  | .decoded _ _ => false
  | .discard _ _ _ => false
  | .sent _ _ => false
  | .crc _ => false

/-- The event's frame, if it carries one, is no longer than the longest frame (30_encoding.md R62). -/
def Event.fits : Event → Prop
  | .decoded _ f => f.length ≤ 263
  | .sent _ f => f.length ≤ 263
  | .discard _ _ _ => True
  | .crc _ => True
  | .error _ _ _ => True

end Sys2Proof.Machine
end

