-- ==== Sys2Proof/Certificates/Slice0/Obligations.lean ====
section
/-! DEFINITION. The statements for the provers, each with the rules of spec/ it comes from. -/

open Sys2Proof Sys2Proof.Machine

/-! ### Encodings -/

/-- Decoding the word of any command gives the command back, with every operand at every value its
field admits (30_encoding.md R66 to R72). -/
def Obligations.DecodeOfEncode : Prop := ∀ i : Instr, decode (encode i) = .ok i

/-- A legal word is the word of the command it decodes to, so no bit of it is dropped (30_encoding.md
R66 to R73). -/
def Obligations.EncodeOfDecode : Prop := ∀ (w : Word) (i : Instr), decode w = .ok i → encode i = w

/-- A word decodes exactly when it matches exactly one row of opcode_table.json under that row's
mask, and the row is that of the command's mnemonic (30_encoding.md R74). -/
def Obligations.LegalWordMatchesOneRow : Prop :=
  (∀ w : Word, (∃ i, decode w = .ok i) ↔ (opcodeTable.filter (·.hits w)).length = 1) ∧
  ∀ (w : Word) (i : Instr), decode w = .ok i →
    (opcodeTable.filter (·.hits w)).map (·.mnemonic) = [i.mnemonic]

/-- The illegal words are exactly those 30_encoding.md R74 lists, field by field. -/
def Obligations.IllegalWordsByField : Prop :=
  ∀ w : Word, (∃ e, decode w = .error e) ↔
    (0x6 ≤ (fieldOp w).toNat) ∨ fieldRsv w ≠ 0 ∨ (fieldOp w = 0x1 ∧ fieldB w ≠ 0) ∨
      (fieldOp w = 0x3 ∧ fieldA w ≠ 0) ∨ (fieldOp w = 0x4 ∧ (fieldA w ≠ 0 ∨ fieldB w ≠ 0)) ∨
      (fieldOp w = 0x0 ∧ w ≠ 0)

/-- Words written out from the formats of 30_encoding.md R67 to R72 and the vectors of
95_test_vectors.md sections 3.1 to 3.5 decode to the commands they stand for. -/
def Obligations.WrittenWordsDecode : Prop :=
  decode 0x00000000 = .ok .nop ∧ decode 0x10020055 = .ok (.feed 0x02 0x55) ∧
  decode 0x2001FE09 = .ok (.send 0x01 0xFE 0x09) ∧ decode 0x3000FF01 = .ok (.sendid 0xFF 0x01) ∧
  decode 0x400000DF = .ok (.data 0xDF) ∧ decode 0x5032000E = .ok (.crc 0x32 0x000E)

/-- The assembler: each command line of numbers that fit gives the word its row of 30_encoding.md R76
writes, each pseudo-command line the words its expansion of R77 writes, and a number that does not fit
or a list longer than its count gives no word. -/
def Obligations.AssemblerWords : Prop :=
  assembleWords .nop = some [0x00000000] ∧
  (∀ ch x, assembleWords (.feed ch x) =
    if ch < 256 ∧ x < 256 then some [BitVec.ofNat 32 (0x1 <<< 28 ||| ch <<< 16 ||| x)] else none) ∧
  (∀ ch id n, assembleWords (.send ch id n) =
    if ch < 256 ∧ id < 256 ∧ n < 256 then
      some [BitVec.ofNat 32 (0x2 <<< 28 ||| ch <<< 16 ||| id <<< 8 ||| n)] else none) ∧
  (∀ sy co, assembleWords (.sendid sy co) =
    if sy < 256 ∧ co < 256 then some [BitVec.ofNat 32 (0x3 <<< 28 ||| sy <<< 8 ||| co)] else none) ∧
  (∀ x, assembleWords (.data x) =
    if x < 256 then some [BitVec.ofNat 32 (0x4 <<< 28 ||| x)] else none) ∧
  (∀ e n, assembleWords (.crc e n) =
    if e < 256 ∧ n < 65536 then some [BitVec.ofNat 32 (0x5 <<< 28 ||| e <<< 16 ||| n)] else none) ∧
  (∀ ch bs, assembleWords (.feeds ch bs) =
    if ch < 256 ∧ (∀ x ∈ bs, x < 256) then
      some (bs.map fun x => BitVec.ofNat 32 (0x1 <<< 28 ||| ch <<< 16 ||| x)) else none) ∧
  (∀ ch id sy co p, assembleWords (.sendmsg ch id sy co p) =
    if ch < 256 ∧ id < 256 ∧ sy < 256 ∧ co < 256 ∧ (∀ x ∈ p, x < 256) ∧ p.length ≤ 255 then
      some (BitVec.ofNat 32 (0x2 <<< 28 ||| ch <<< 16 ||| id <<< 8 ||| p.length) ::
        BitVec.ofNat 32 (0x3 <<< 28 ||| sy <<< 8 ||| co) ::
        p.map fun x => BitVec.ofNat 32 (0x4 <<< 28 ||| x)) else none) ∧
  (∀ e bs, assembleWords (.crcof e bs) =
    if e < 256 ∧ (∀ x ∈ bs, x < 256) ∧ bs.length ≤ 65535 then
      some (BitVec.ofNat 32 (0x5 <<< 28 ||| e <<< 16 ||| bs.length) ::
        bs.map fun x => BitVec.ofNat 32 (0x4 <<< 28 ||| x)) else none)

/-- The words of an event, in the fields of 30_encoding.md R80: kind, code, channel and INFO of its
header, and one BYTE word per frame byte (R81 to R86); with the code of every discard reason
(60_exceptions.md R152) and of every command error (R153). -/
def Obligations.EventWordFields : Prop :=
  (∀ k c ch i, fieldOp (eventHeader k c ch i) = k ∧ fieldRsv (eventHeader k c ch i) = c ∧
    fieldA (eventHeader k c ch i) = ch ∧ fieldN (eventHeader k c ch i) = i) ∧
  (∀ x, fieldOp (byteWord x) = 0xB ∧ (byteWord x).extractLsb' 8 20 = 0 ∧ fieldC (byteWord x) = x) ∧
  (∀ ch f, eventWords (.decoded ch f) =
    eventHeader 0x1 0 ch (BitVec.ofNat 16 f.length) :: f.map byteWord) ∧
  (∀ ch f, eventWords (.sent ch f) =
    eventHeader 0x3 0 ch (BitVec.ofNat 16 f.length) :: f.map byteWord) ∧
  (∀ ch r x, eventWords (.discard ch r x) = [eventHeader 0x2 (discardCode r) ch (x.setWidth 16)]) ∧
  (∀ v, eventWords (.crc v) = [eventHeader 0x4 0 0 v]) ∧
  (∀ code ch i, eventWords (.error code ch i) = [eventHeader 0xE (errorCode code) ch i]) ∧
  (discardCode .notMarker = 0x1 ∧ discardCode .unknownId = 0x2 ∧ discardCode .lenMismatch = 0x3 ∧
    discardCode .crcMismatch = 0x4 ∧ discardCode .unpackFail = 0x5) ∧
  (errorCode .illegal = 0x1 ∧ errorCode .sequence = 0x2 ∧ errorCode .aborted = 0x3 ∧
    errorCode .channel = 0x4 ∧ errorCode .unknownMsgid = 0x5 ∧ errorCode .lenMismatch = 0x6 ∧
    errorCode .overflow = 0x7)

/-- The words on the output port determine the events: two streams of events whose frames are no
longer than the longest frame and whose words are the same are the same stream (30_encoding.md R80,
R86). -/
def Obligations.EventStreamDetermined : Prop :=
  ∀ es fs : List Event, (∀ e ∈ es, e.fits) → (∀ e ∈ fs, e.fits) →
    streamWords es = streamWords fs → es = fs

/-! ### The checksum unit -/

/-- The table form and the bit-serial form of the one-byte step are equal for every accumulator and
every byte (40_checksum.md R90). -/
def Obligations.ChecksumFormsAgree : Prop := ∀ (c : Half) (x : Byte), crcAcc c x = crcAccSerial c x

/-- The fold takes bytes one at a time and from the front, splits anywhere, and depends on their order
(40_checksum.md R91). -/
def Obligations.ChecksumFoldSplits : Prop :=
  (∀ c, crcSeq c [] = c) ∧ (∀ c x s, crcSeq c (x :: s) = crcSeq (crcAcc c x) s) ∧
  (∀ c s t, crcSeq c (s ++ t) = crcSeq (crcSeq c s) t) ∧
  ∃ c a b, crcSeq c [a, b] ≠ crcSeq c [b, a]

/-- The checksum starts at 0xFFFF, takes the bytes in order and the seed last, and gives the source's
example its value (40_checksum.md R92, 95_test_vectors.md W1). -/
def Obligations.ChecksumSeedsLast : Prop :=
  (∀ s e, checksum s e = crcAcc (crcSeq 0xFFFF s) e) ∧
  checksum [0x09, 0x00, 0xFF, 0x00, 0x00, 0x00, 0x00, 0x00, 0x00, 0x06, 0x08, 0x00, 0x00, 0x03] 0x32
    = 0xDFA1

/-! ### The frame codec -/

/-- The decode function on every buffer, its checks in order (41_frame_codec.md R101): an empty
buffer, a head that is no marker, a short header, a short frame, and a whole frame of a registered or
unregistered id. -/
def Obligations.TryDecodeChecksInOrder : Prop :=
  ∀ cfg : Config,
    tryDecode cfg [] = .need ∧
    (∀ (x : Byte) (b : List Byte), x ≠ 0xFE → tryDecode cfg (x :: b) = .invalid .notMarker) ∧
    (∀ b : List Byte, b.length < 5 → tryDecode cfg (0xFE :: b) = .need) ∧
    (∀ (l seq sy co id : Byte) (b : List Byte), b.length < l.toNat + 2 →
      tryDecode cfg (0xFE :: l :: seq :: sy :: co :: id :: b) = .need) ∧
    (∀ (l seq sy co id lo hi : Byte) (p t : List Byte), p.length = l.toNat →
      tryDecode cfg (0xFE :: l :: seq :: sy :: co :: id :: (p ++ lo :: hi :: t)) =
        match cfg.reg id with
        | none => .invalid .unknownId
        | some e =>
          if e.len ≠ l then .invalid .lenMismatch
          else if checksum (l :: seq :: sy :: co :: id :: p) e.seed ≠
              (lo.setWidth 16 ||| (hi.setWidth 16 <<< 8)) then .invalid .crcMismatch
          else if cfg.unpackOk id p = false then .invalid .unpackFail
          else .decoded (8 + l.toNat) (0xFE :: l :: seq :: sy :: co :: id :: (p ++ [lo, hi])))

/-- `tryDecode` accepts exactly the valid frames at the head of a buffer, and every frame the encoder
emits for a registered id of the right length whose payload unpacks is valid (30_encoding.md R65). -/
def Obligations.TryDecodeAcceptsValidFrames : Prop :=
  (∀ cfg b n f, tryDecode cfg b = .decoded n f ↔ (ValidFrame cfg f ∧ n = f.length ∧ f <+: b)) ∧
  ∀ cfg id sy co seq p e, cfg.reg id = some e → e.len.toNat = p.length →
    cfg.unpackOk id p = true → ValidFrame cfg (encodeFrame id sy co seq p e.seed)

/-- A decode attempt reads no byte beyond the claimed frame, and only the head if it is no marker
(41_frame_codec.md R104). -/
def Obligations.TryDecodeReadWindow : Prop :=
  ∀ cfg b, tryDecode cfg (b.take (8 + frameL b)) = tryDecode cfg b ∧
    (peek b 0 ≠ 0xFE → tryDecode cfg (b.take 1) = tryDecode cfg b)

/-- An answer once given stands whatever bytes follow; a non-empty buffer that needs more bytes is a
proper prefix of one that is decided (41_frame_codec.md R105). -/
def Obligations.PrefixStability : Prop :=
  (∀ cfg b t, tryDecode cfg b ≠ .need → tryDecode cfg (b ++ t) = tryDecode cfg b) ∧
  ∀ cfg b, tryDecode cfg b = .need → b ≠ [] → ∃ t, t ≠ [] ∧ tryDecode cfg (b ++ t) ≠ .need

/-- The bytes of an encoded frame: marker, length, sequence number, ids, payload and the checksum low
byte first, 8 + len(p) bytes in all (41_frame_codec.md R106, R107, R109). -/
def Obligations.EncodedFrameLayout : Prop :=
  ∀ (id sy co seq : Byte) (p : List Byte) (seed : Byte), p.length ≤ 255 →
    encodeFrame id sy co seq p seed =
      0xFE :: BitVec.ofNat 8 p.length :: seq :: sy :: co :: id :: p ++
        [(checksum (BitVec.ofNat 8 p.length :: seq :: sy :: co :: id :: p) seed).extractLsb' 0 8,
         (checksum (BitVec.ofNat 8 p.length :: seq :: sy :: co :: id :: p) seed).extractLsb' 8 8] ∧
    (encodeFrame id sy co seq p seed).length = 8 + p.length

/-- Decoding an encoded frame, whatever follows it, gives the frame back with every field where it
was put (41_frame_codec.md R108). -/
def Obligations.DecodeOfEncodedFrame : Prop :=
  ∀ cfg id sy co seq p e t, cfg.reg id = some e → p.length = e.len.toNat →
    cfg.unpackOk id p = true →
    let f := encodeFrame id sy co seq p e.seed
    tryDecode cfg (f ++ t) = .decoded f.length f ∧ peek f 2 = seq ∧ peek f 3 = sy ∧
      peek f 4 = co ∧ peek f 5 = id ∧ slice f 6 (5 + p.length) = p

/-- The source's worked example: the heartbeat's frame, bit for bit (95_test_vectors.md W1). -/
def Obligations.HeartbeatFrame : Prop :=
  encodeFrame 0x00 0xFF 0x00 0x00 [0x00, 0x00, 0x00, 0x00, 0x06, 0x08, 0x00, 0x00, 0x03] 0x32 =
    [0xFE, 0x09, 0x00, 0xFF, 0x00, 0x00, 0x00, 0x00, 0x00, 0x00, 0x06, 0x08, 0x00, 0x00, 0x03,
     0xA1, 0xDF]

/-! ### The drain -/

/-- The drain is the loop of 42_session.md R124: it runs to exactly one end, in at most as many rounds
as there are bytes, and leaves a quiescent buffer (R124, R125). -/
def Obligations.DrainRunsToQuiescence : Prop :=
  ∀ cfg c b,
    DrainRuns cfg c b (drain cfg c b).1 (drain cfg c b).2 ∧
    (∀ es b', DrainRuns cfg c b es b' → es = (drain cfg c b).1 ∧ b' = (drain cfg c b).2) ∧
    (drain cfg c b).1.length + (drain cfg c b).2.length ≤ b.length ∧
    Quiescent cfg (drain cfg c b).2

/-- What a quiescent buffer looks like: short of a header, or a marker and less than the frame it
claims; at most 262 bytes, and headed by the marker if not empty (10_state.md R25). -/
def Obligations.QuiescentBufferShape : Prop :=
  ∀ cfg b, Quiescent cfg b →
    (b.length < 6 ∨ (peek b 0 = 0xFE ∧ 6 ≤ b.length ∧ b.length < 8 + (peek b 1).toNat)) ∧
    b.length ≤ 262 ∧ (1 ≤ b.length → peek b 0 = 0xFE)

/-! ### Steps and dispatch -/

/-- A step at which a legal word waits, with no fault recorded, is `exec` of the command the word
decodes to, on the state with the word taken from the port (42_session.md R120). -/
def Obligations.StepRunsDecodedCommand : Prop :=
  ∀ (s : State) (w : Word) (rest : List PortInput) (i : Instr),
    s.input = .word w :: rest → s.fault = none → decode w = .ok i →
    step s = exec i { s with input := rest }

/-- With nothing on the inputs the FCB waits: the step leaves the state as it is. The model's choice,
log entry 1 (70_reset_and_hazards.md R170). -/
def Obligations.StepWaitsForInput : Prop :=
  ∀ s : State, s.input = [] → s.fault = none → step s = .next s

/-- `exec` is the meaning of the command under the machine's own configuration. The model's choice,
log entry 5. -/
def Obligations.ExecUsesChipConfig : Prop :=
  ∀ (i : Instr) (s : State), exec i s = execIn Config.chip i s

/-- While FAULT holds BUF_FULL(c), no word is taken: only the reset input gives a next state
(42_session.md R120, 60_exceptions.md R159). -/
def Obligations.FaultedMachineTakesNoStep : Prop :=
  (∀ (s : State) (c : Byte), s.fault = some (.bufFull c) → (∀ rest, s.input ≠ .reset :: rest) →
    step s = .fault (.bufFull c)) ∧
  ∀ s t : State, s.fault ≠ none → step s = .next t → ∃ rest, s.input = .reset :: rest

/-- The reset input sets every state element to its reset value, emits nothing and withdraws nothing,
from every state, and clears FAULT (70_reset_and_hazards.md R170). That what the host sent behind the
reset still waits is the model's choice, log entry 2. -/
def Obligations.ResetInputResets : Prop :=
  ∀ (s : State) (rest : List PortInput), s.input = .reset :: rest →
    ∃ t, step s = .next t ∧ (∀ c, t.buf c = []) ∧ (∀ c, t.txseq c = 0) ∧ t.sq = .idle ∧
      t.p = Latches.empty ∧ t.fault = none ∧ t.out = s.out ∧ t.input = rest

/-- The state after reset (10_state.md R21, R22, R26, R27, R28 and its section 6). That nothing has
been emitted and nothing waits on the inputs is the model's choice, log entries 1 and 3. -/
def Obligations.ResetValues : Prop :=
  (∀ c, State.reset.buf c = []) ∧ (∀ c, State.reset.txseq c = 0) ∧ State.reset.sq = .idle ∧
  State.reset.p = ⟨none, none, none, none, none, none, none, none, none⟩ ∧
  State.reset.fault = none ∧ State.reset.out = [] ∧ State.reset.input = []

/-- An illegal word in IDLE is one ERR_ILLEGAL carrying its OP, and changes nothing else
(42_session.md R122). -/
def Obligations.IllegalWordInIdle : Prop :=
  ∀ (s : State) (w : Word) (rest : List PortInput) (e : IllegalWord),
    s.input = .word w :: rest → s.fault = none → decode w = .error e → s.sq = .idle →
    step s = .next
      { s with
        input := rest, out := s.out ++ [.error .illegal 0 ((w.extractLsb' 28 4).setWidth 16 <<< 12)] }

/-- A legal SENDID or DATA word in IDLE is one ERR_SEQUENCE carrying its OP, and changes nothing else
(42_session.md R130). -/
def Obligations.StrayWordInIdle : Prop :=
  ∀ s : State, s.sq = .idle →
    (∀ sy co, exec (.sendid sy co) s =
      .next { s with out := s.out ++ [.error .sequence 0 (0x3 <<< 12)] }) ∧
    ∀ x, exec (.data x) s = .next { s with out := s.out ++ [.error .sequence 0 (0x4 <<< 12)] }

/-- Any nonzero word inside an open command but the expected one closes the command, emits one
ERR_ABORTED naming the open command and the word, and is itself discarded: a SEND by its channel, a
CRC by channel 0 (42_session.md R131). -/
def Obligations.UnexpectedWordAborts : Prop :=
  ∀ (s : State) (w : Word) (rest : List PortInput),
    s.input = .word w :: rest → s.fault = none → w ≠ 0 → ¬ Expected s.sq w →
    (s.sq = .crcData → step s = .next
      { closedWithError s .aborted 0 (((w.extractLsb' 28 4).setWidth 16 <<< 12) ||| (0x5 <<< 8)) with
        input := rest }) ∧
    (∀ ch, s.sq = .sendId ∨ s.sq = .sendData → s.p.ch = some ch → step s = .next
      { closedWithError s .aborted ch (((w.extractLsb' 28 4).setWidth 16 <<< 12) ||| (0x2 <<< 8)) with
        input := rest })

/-! ### The commands -/

/-- NOP changes nothing, in every sequencer state (42_session.md R121). -/
def Obligations.NopChangesNothing : Prop := ∀ s : State, exec .nop s = .next s

/-- FEED in IDLE on a channel of the FCB with room in its buffer appends the byte and drains: the
buffer becomes what the loop of R124 leaves of it, the loop's events are emitted in its order, and
nothing else changes (42_session.md R123). -/
def Obligations.FeedPushesAndDrains : Prop :=
  ∀ (s : State) (c x : Byte), s.sq = .idle → c.toNat < Config.chip.nch → (s.buf c).length < 263 →
    ∃ t es b', exec (.feed c x) s = .next t ∧
      DrainRuns Config.chip c (s.buf c ++ [x]) es b' ∧ t.buf c = b' ∧ t.out = s.out ++ es ∧
      (∀ d, d ≠ c → t.buf d = s.buf d) ∧ (∀ d, t.txseq d = s.txseq d) ∧ t.sq = s.sq ∧ t.p = s.p ∧
      t.fault = s.fault ∧ t.input = s.input

/-- FEED in IDLE on a channel number at or above NCH is one ERR_CHANNEL and changes nothing else,
under every configuration (42_session.md R123, 60_exceptions.md R153). -/
def Obligations.FeedRefusesBadChannel : Prop :=
  ∀ (cfg : Config) (s : State) (c x : Byte), s.sq = .idle → cfg.nch ≤ c.toNat →
    execIn cfg (.feed c x) s = .next { s with out := s.out ++ [.error .channel c 0x1000] }

/-- FEED in IDLE onto a full buffer records BUF_FULL(c) and changes nothing else, and after it no word
is taken: a step at which any word waits is the fault (20_memory.md R42, 10_state.md R28). That the FEED's own step records the fault
and the next one stops is the model's choice, log entry 7. -/
def Obligations.FeedOntoFullBufferFaults : Prop :=
  ∀ (s : State) (c x : Byte), s.sq = .idle → c.toNat < Config.chip.nch → (s.buf c).length = 263 →
    exec (.feed c x) s = .next { s with fault := some (.bufFull c) } ∧
    ∀ w rest, step { s with fault := some (.bufFull c), input := .word w :: rest } =
      .fault (.bufFull c)

/-- The SEND header in IDLE latches its fields and an empty payload and opens the command; nothing
else changes (42_session.md R126). -/
def Obligations.SendHeaderOpens : Prop :=
  ∀ (s : State) (ch id n : Byte), s.sq = .idle →
    exec (.send ch id n) s = .next
      { s with
        sq := .sendId
        p := { s.p with ch := some ch, msgid := some id, plen := some n, pay := some [] } }

/-- SENDID in SEND_ID with payload to come latches the two ids and goes to SEND_DATA; nothing else
changes (42_session.md R127). -/
def Obligations.SendidLatchesIds : Prop :=
  ∀ (s : State) (sy co n : Byte), s.sq = .sendId → s.p.plen = some n → n ≠ 0 →
    exec (.sendid sy co) s = .next
      { s with sq := .sendData, p := { s.p with sysid := some sy, compid := some co } }

/-- SENDID in SEND_ID with no payload to come completes the SEND, under every configuration
(42_session.md R127, R129). -/
def Obligations.SendidCompletesEmptySend : Prop :=
  ∀ (cfg : Config) (s : State) (sy co c id : Byte) (p : List Byte), s.sq = .sendId →
    s.p.plen = some 0 → s.p.ch = some c → s.p.msgid = some id → s.p.pay = some p →
    ∃ t, execIn cfg (.sendid sy co) s = .next t ∧ SendEnds cfg c id sy co p s t

/-- DATA in SEND_DATA before the last payload byte appends the byte; nothing else changes
(42_session.md R128). -/
def Obligations.DataAppendsPayload : Prop :=
  ∀ (s : State) (x n : Byte) (p : List Byte), s.sq = .sendData → s.p.pay = some p →
    s.p.plen = some n → p.length + 1 ≠ n.toNat →
    exec (.data x) s = .next { s with p := { s.p with pay := some (p ++ [x]) } }

/-- The PLEN-th DATA in SEND_DATA completes the SEND, under every configuration (42_session.md R128,
R129). -/
def Obligations.DataCompletesSend : Prop :=
  ∀ (cfg : Config) (s : State) (x n c id sy co : Byte) (p : List Byte), s.sq = .sendData →
    s.p.pay = some p → s.p.plen = some n → p.length + 1 = n.toNat → s.p.ch = some c →
    s.p.msgid = some id → s.p.sysid = some sy → s.p.compid = some co →
    ∃ t, execIn cfg (.data x) s = .next t ∧ SendEnds cfg c id sy co (p ++ [x]) s t

/-- On this FCB, the last payload byte of a SEND of a registered id of the right length on one of its
channels emits exactly the encoded frame, with the counter's value before its increment, and advances
that counter modulo 256 (42_session.md R128, R129, 10_state.md R22). -/
def Obligations.DataSendsFrame : Prop :=
  ∀ (s : State) (x n c id sy co : Byte) (p : List Byte) (e : RegEntry), s.sq = .sendData →
    s.p.pay = some p → s.p.plen = some n → p.length + 1 = n.toNat → s.p.ch = some c →
    s.p.msgid = some id → s.p.sysid = some sy → s.p.compid = some co →
    c.toNat < Config.chip.nch → Config.chip.reg id = some e → e.len = n →
    ∃ t, exec (.data x) s = .next t ∧ t.sq = .idle ∧ t.p = Latches.empty ∧
      t.out = s.out ++ [.sent c (encodeFrame id sy co (s.txseq c) (p ++ [x]) e.seed)] ∧
      (t.txseq c).toNat = ((s.txseq c).toNat + 1) % 256 ∧ (∀ d, d ≠ c → t.txseq d = s.txseq d) ∧
      ∀ d, t.buf d = s.buf d

/-- The CRC header in IDLE: with data to come it latches seed, start value and count and goes to
CRC_DATA; with none it emits the checksum of the empty sequence at once (40_checksum.md R95, R96). -/
def Obligations.CrcHeaderOpensOrCompletes : Prop :=
  ∀ (s : State) (e : Byte) (n : Half), s.sq = .idle →
    (n ≠ 0 → exec (.crc e n) s = .next
      { s with
        sq := .crcData, p := { s.p with seed := some e, acc := some 0xFFFF, rem := some n } }) ∧
    (n = 0 → exec (.crc e n) s = .next
      { s with sq := .idle, p := Latches.empty, out := s.out ++ [.crc (checksum [] e)] })

/-- DATA in CRC_DATA folds one byte and counts it; the last one folds the seed, emits the result and
closes the command. Nothing else changes (42_session.md R128, 40_checksum.md R96). -/
def Obligations.DataFoldsChecksum : Prop :=
  ∀ (s : State) (x e : Byte) (a r : Half), s.sq = .crcData → s.p.acc = some a → s.p.rem = some r →
    s.p.seed = some e →
    (1 < r.toNat → exec (.data x) s = .next
      { s with p := { s.p with acc := some (crcAcc a x), rem := some (r - 1) } }) ∧
    (r = 1 → exec (.data x) s = .next
      { s with
        sq := .idle, p := Latches.empty, out := s.out ++ [.crc (crcAcc (crcAcc a x) e)] })

/-! ### Frames of the commands -/

/-- FEED, in any sequencer state, writes at most one buffer, OUT, FAULT and (by an abort) the
sequencer and latches: every counter, every other channel and the inputs stay, OUT only grows, FAULT
is set only by a full buffer, and outside IDLE no buffer changes (20_memory.md R49, 42_session.md
R123, R131). -/
def Obligations.FeedFrame : Prop :=
  ∀ (s t : State) (c x : Byte), exec (.feed c x) s = .next t →
    (∀ d, d ≠ c → t.buf d = s.buf d) ∧ (∀ d, t.txseq d = s.txseq d) ∧ t.input = s.input ∧
    s.out <+: t.out ∧
    (t.fault = s.fault ∨ (t.fault = some (.bufFull c) ∧ (s.buf c).length = 263 ∧ s.sq = .idle)) ∧
    (s.sq = .idle → t.sq = s.sq ∧ t.p = s.p) ∧
    (s.sq ≠ .idle → t.buf c = s.buf c ∧ t.fault = s.fault ∧ t.sq = .idle ∧ t.p = Latches.empty)

/-- NOP, SEND and CRC, in any sequencer state, leave the whole channel file, FAULT and the inputs as
they are, and OUT only grows (42_session.md R121, R126, 40_checksum.md R95). -/
def Obligations.HeaderFrame : Prop :=
  ∀ (s t : State) (i : Instr),
    (i = .nop ∨ (∃ ch id n, i = .send ch id n) ∨ ∃ e n, i = .crc e n) → exec i s = .next t →
    (∀ d, t.buf d = s.buf d) ∧ (∀ d, t.txseq d = s.txseq d) ∧ t.fault = s.fault ∧
      t.input = s.input ∧ s.out <+: t.out

/-- SENDID and DATA, in any sequencer state, leave every buffer, FAULT, the inputs and every counter
but that of the open SEND's channel as they are; OUT grows by at most one event (20_memory.md R49,
42_session.md R127, R128). -/
def Obligations.SendWordFrame : Prop :=
  ∀ (s t : State) (i : Instr), ((∃ sy co, i = .sendid sy co) ∨ ∃ x, i = .data x) →
    exec i s = .next t →
    (∀ d, t.buf d = s.buf d) ∧ (∀ d, s.p.ch ≠ some d → t.txseq d = s.txseq d) ∧
      t.fault = s.fault ∧ t.input = s.input ∧ ∃ es, t.out = s.out ++ es ∧ es.length ≤ 1

/-! ### The whole machine -/

/-- The state after reset meets the invariants (10_state.md R25, R27, R28). That entries at or above
NCH hold the reset value is the model's choice, log entry 4. -/
def Obligations.ResetIsSafe : Prop := Safe State.reset

/-- Every step keeps the invariants: channels quiescent, latches fitting the sequencer state, no fault
recorded (10_state.md R25, R27, R28). Two of its clauses are the model's choice: that entries which
are no channel keep the reset value (log entry 4), and that P.PAY is the empty sequence in SEND_ID
(log entry 8). -/
def Obligations.StepKeepsSafe : Prop := ∀ s t : State, Safe s → step s = .next t → Safe t

/-- The dispatch is total and no buffer overflows: from every state that meets the invariants, every
step answers a next state, whatever the host does, and records no fault there (42_session.md R120,
60_exceptions.md R155). -/
def Obligations.SafeStepsNeverStop : Prop :=
  ∀ s : State, Safe s → ∃ t, step s = .next t ∧ t.fault = none

/-- Every step from a state whose latches fit its sequencer state keeps OUT to legal events: the kinds
and codes 30_encoding.md R80 and 60_exceptions.md R152 and R153 allow, with the fields they give, no
ERR_OVERFLOW, only valid frames decoded. `StepKeepsSafe` states that the latches go on fitting; what
they fit in SEND_ID is the model's choice, log entry 8. -/
def Obligations.StepEmitsLegalEvents : Prop :=
  ∀ s t : State, LatchesFit s.sq s.p → (∀ e ∈ s.out, EventLegal Config.chip e) → step s = .next t →
    ∀ e ∈ t.out, EventLegal Config.chip e

/-- Events are never dropped, reordered or withdrawn: every step only appends to OUT, reset included
(10_state.md R31). -/
def Obligations.OutputOnlyGrows : Prop := ∀ s t : State, step s = .next t → s.out <+: t.out

/-- A buffer changes only by the reset input or by a FEED on its own channel taken in IDLE
(10_state.md R21). -/
def Obligations.OnlyFeedChangesBuffer : Prop :=
  ∀ (s t : State) (c : Byte), step s = .next t → t.buf c ≠ s.buf c →
    (∃ rest, s.input = .reset :: rest) ∨
    ∃ x rest, s.input = .word (encode (.feed c x)) :: rest ∧ s.sq = .idle

/-- A counter changes only by the reset input or by a SEND that succeeds on its channel: the step then
emits exactly one SENT event there, its SEQ byte is the counter's value and the counter becomes one
more modulo 256 (10_state.md R22). -/
def Obligations.OnlySentFrameAdvancesCounter : Prop :=
  ∀ (s t : State) (c : Byte), step s = .next t → t.txseq c ≠ s.txseq c →
    (∃ rest, s.input = .reset :: rest) ∨
    ∃ f, t.out = s.out ++ [.sent c f] ∧ peek f 2 = s.txseq c ∧
      (t.txseq c).toNat = ((s.txseq c).toNat + 1) % 256

/-- One command word raises at most one EV_ERROR, alone, and a command error changes no buffer and no
counter (60_exceptions.md R153, R156, R157). -/
def Obligations.ErrorsLeaveChannels : Prop :=
  ∀ s t : State, step s = .next t → ∃ es, t.out = s.out ++ es ∧
    ((∃ e ∈ es, e.isError = true) →
      es.length = 1 ∧ (∀ d, t.buf d = s.buf d) ∧ (∀ d, t.txseq d = s.txseq d) ∧ t.sq = .idle)

/-- A FEED on a channel depends on nothing but that channel's buffer: from two states in IDLE that
agree on it, a FEED leaves the same buffer, emits the same events and records the same fault
(20_memory.md R49). -/
def Obligations.FeedSeesOnlyItsBuffer : Prop :=
  ∀ (cfg : Config) (c x : Byte) (s s' t t' : State), s.sq = .idle → s'.sq = .idle →
    s.buf c = s'.buf c → s.fault = s'.fault → execIn cfg (.feed c x) s = .next t →
    execIn cfg (.feed c x) s' = .next t' →
    t.buf c = t'.buf c ∧ t.fault = t'.fault ∧ ∃ es, t.out = s.out ++ es ∧ t'.out = s'.out ++ es

/-- The table of 10_state.md R24: a channel is Idle exactly when its buffer is empty and Accumulating
exactly when the buffer is not empty and needs more bytes. At a state that meets the invariants it is
Idle or Accumulating by its buffer being empty or not, and never Resyncing. That every other buffer
counts as Resyncing is the model's choice, log entry 16. -/
def Obligations.NoChannelResyncsBetweenSteps : Prop :=
  (∀ cfg b, (channelMode cfg b = .idle ↔ b.length = 0) ∧
    (channelMode cfg b = .accumulating ↔ 0 < b.length ∧ tryDecode cfg b = .need)) ∧
  ∀ (s : State) (c : Byte), Safe s →
    (channelMode Config.chip (s.buf c) = .idle ↔ s.buf c = []) ∧
    (channelMode Config.chip (s.buf c) = .accumulating ↔ s.buf c ≠ []) ∧
    channelMode Config.chip (s.buf c) ≠ .resyncing

/-! ### Laws of the session -/

/-- Chunk equivalence: FEEDS of a chunk, one FEED word per byte, leaves exactly the state, OUT
included, that appending the chunk at once and draining once leaves (42_session.md R132). -/
def Obligations.ChunkEquivalence : Prop :=
  ∀ (cfg : Config) (s : State) (c : Byte) (bs : List Byte), s.sq = .idle → c.toNat < cfg.nch →
    Quiescent cfg (s.buf c) → execAllIn cfg (feeds c bs) s = .next (feedChunk cfg c bs s)

/-- A whole SENDMSG in IDLE ends as one SEND_COMPLETE on its payload: exactly one SENT or one error
(30_encoding.md R77, 42_session.md R126 to R129). -/
def Obligations.SendmsgEndsOnce : Prop :=
  ∀ (cfg : Config) (s : State) (c id sy co : Byte) (p : List Byte), s.sq = .idle →
    p.length ≤ 255 →
    ∃ t, execAllIn cfg (sendmsg c id sy co p) s = .next t ∧ SendEnds cfg c id sy co p s t

/-- A whole CRCOF in IDLE emits the checksum of its bytes and seed, and leaves the sequencer closed
and everything else as it was (30_encoding.md R77, 40_checksum.md R96). -/
def Obligations.CrcofEmitsChecksum : Prop :=
  ∀ (cfg : Config) (s : State) (e : Byte) (bs : List Byte), s.sq = .idle → bs.length ≤ 65535 →
    execAllIn cfg (crcof e bs) s = .next
      { s with p := Latches.empty, out := s.out ++ [.crc (checksum bs e)] }

/-- Loopback: the frame of any SENT event whose payload unpacks, fed to a channel with an empty
buffer, emits exactly one event, its DECODED, on the last byte, and leaves the buffer empty
(42_session.md R134). -/
def Obligations.SentFrameLoopsBack : Prop :=
  ∀ (cfg : Config) (i : Instr) (s t : State) (c : Byte) (f : List Byte),
    execIn cfg i s = .next t → t.out = s.out ++ [.sent c f] →
    cfg.unpackOk (peek f 5) (slice f 6 (5 + frameL f)) = true →
    ∀ (u : State) (d : Byte), u.sq = .idle → d.toNat < cfg.nch → u.buf d = [] →
      (∀ k, k < f.length → execAllIn cfg (feeds d (f.take k)) u = .next (u.setBuf d (f.take k))) ∧
      execAllIn cfg (feeds d f) u = .next { u with out := u.out ++ [.decoded d f] }

/-- Sequence numbering: over any run without a reset, the frames sent on a channel carry consecutive
sequence numbers modulo 256 from the channel's counter on, whatever else happens between them, and the
counter ends advanced by their number (42_session.md R133). -/
def Obligations.SentFramesNumbered : Prop :=
  ∀ (k : Nat) (s t : State), steps k s = .next t → (∀ x ∈ s.input, x ≠ .reset) →
    ∃ es, t.out = s.out ++ es ∧ ∀ c,
      sentSeqs c es = seqsFrom (s.txseq c) (sentSeqs c es).length ∧
      (t.txseq c).toNat = ((s.txseq c).toNat + (sentSeqs c es).length) % 256

/-- Forcing the pending decisions: any 263 filler bytes that are not the marker, fed to a quiescent
channel, leave its buffer empty (70_reset_and_hazards.md R176). -/
def Obligations.FillerEmptiesBuffer : Prop :=
  ∀ (cfg : Config) (s : State) (c : Byte) (bs : List Byte), s.sq = .idle → c.toNat < cfg.nch →
    Quiescent cfg (s.buf c) → bs.length = 263 → (∀ x ∈ bs, x ≠ 0xFE) →
    ∃ t, execAllIn cfg (feeds c bs) s = .next t ∧ t.buf c = []
end

