-- ==== Sys2Proof/Laws/Codec.lean ====
section
/-! SUPPORT. Byte sequences by index, and the decode function case by case (41_frame_codec.md R101). -/

namespace Sys2Proof.Machine

/-! ### Byte sequences -/

theorem peek_append_left {b : List Byte} (t : List Byte) {i : Nat} (h : i < b.length) :
    peek (b ++ t) i = peek b i := by
  simp [peek, List.getElem?_append_left h]

theorem slice_append_left {b : List Byte} (t : List Byte) {i j : Nat} (h : j < b.length) :
    slice (b ++ t) i j = slice b i j := by
  unfold slice
  by_cases hi : i ≤ b.length
  · rw [List.drop_append_of_le_length hi, List.take_append_of_le_length (by simp; omega)]
  · have : j + 1 - i = 0 := by omega
    simp [this]

theorem slice_length {b : List Byte} {i j : Nat} (h : j < b.length) :
    (slice b i j).length = j + 1 - i := by
  simp [slice]; omega

/-- A slice from the head is a prefix. -/
theorem slice_zero (b : List Byte) (j : Nat) : slice b 0 j = b.take (j + 1) := by simp [slice]

theorem frameL_lt (b : List Byte) : frameL b < 256 := (peek b 1).isLt

theorem frameL_append_left {b : List Byte} (t : List Byte) (h : 1 < b.length) :
    frameL (b ++ t) = frameL b := by
  simp [frameL, peek_append_left t h]

theorem rxCrc_append_left {b : List Byte} (t : List Byte) (h : 8 + frameL b ≤ b.length) :
    rxCrc (b ++ t) = rxCrc b := by
  unfold rxCrc
  rw [frameL_append_left t (by omega), peek_append_left t (by omega), peek_append_left t (by omega)]

theorem crcFrame_append_left {b : List Byte} (t : List Byte) (e : Byte)
    (h : 8 + frameL b ≤ b.length) : crcFrame (b ++ t) e = crcFrame b e := by
  unfold crcFrame
  rw [frameL_append_left t (by omega), slice_append_left t (by omega)]

/-! ### The decode function -/

@[simp] theorem tryDecode_nil (cfg : Config) : tryDecode cfg [] = .need := rfl

/-- Step 1 fails: the head is no marker. -/
theorem tryDecode_notMarker {cfg : Config} {b : List Byte} (h0 : b ≠ []) (h : peek b 0 ≠ marker) :
    tryDecode cfg b = .invalid .notMarker := by
  simp [tryDecode, h0, h]

/-- Steps 2 and 3: a marker, and fewer bytes than a header or than the claimed frame. -/
theorem tryDecode_short {cfg : Config} {b : List Byte} (h : peek b 0 = marker)
    (hs : b.length < 6 ∨ b.length < 8 + frameL b) : tryDecode cfg b = .need := by
  unfold tryDecode hdrLen trlLen
  rcases hs with hs | hs
  · simp [h, hs]
  · have : b.length < 6 + frameL b + 2 := by omega
    simp [h, this]

/-- The checks made of a whole claimed frame (steps 4 to 6). -/
def wholeFrame (cfg : Config) (b : List Byte) : DecodeOutcome :=
  match cfg.reg (peek b 5) with
  | none => .invalid .unknownId
  | some e =>
    if e.len ≠ peek b 1 then .invalid .lenMismatch
    else if crcFrame b e.seed ≠ rxCrc b then .invalid .crcMismatch
    else if cfg.unpackOk (peek b 5) (slice b 6 (5 + frameL b)) = false then .invalid .unpackFail
    else .decoded (8 + frameL b) (b.take (8 + frameL b))

/-- A marker and the whole claimed frame: steps 4 to 6 decide. -/
theorem tryDecode_whole {cfg : Config} {b : List Byte} (h : peek b 0 = marker)
    (hl : 8 + frameL b ≤ b.length) : tryDecode cfg b = wholeFrame cfg b := by
  have h1 : b ≠ [] := by rintro rfl; simp at hl
  have h2 : ¬ b.length < 6 := by omega
  have h3 : ¬ b.length < 6 + frameL b + 2 := by omega
  have h4 : 7 + frameL b + 1 = 8 + frameL b := by omega
  cases hr : cfg.reg (peek b 5) <;>
    simp [tryDecode, hdrLen, trlLen, wholeFrame, h, h1, h2, h3, slice_zero, h4, hr]

/-- A whole claimed frame is always decided. -/
theorem wholeFrame_ne_need (cfg : Config) (b : List Byte) : wholeFrame cfg b ≠ .need := by
  unfold wholeFrame
  split
  · simp
  · split
    · simp
    · split
      · simp
      · split <;> simp

/-- The four ways a decode attempt can go. -/
theorem tryDecode_cases (cfg : Config) (b : List Byte) :
    (b = [] ∧ tryDecode cfg b = .need) ∨
    (b ≠ [] ∧ peek b 0 ≠ marker ∧ tryDecode cfg b = .invalid .notMarker) ∨
    (peek b 0 = marker ∧ (b.length < 6 ∨ b.length < 8 + frameL b) ∧ tryDecode cfg b = .need) ∨
    (peek b 0 = marker ∧ 8 + frameL b ≤ b.length ∧ tryDecode cfg b = wholeFrame cfg b) := by
  by_cases h0 : b = []
  · exact .inl ⟨h0, by simp [h0]⟩
  by_cases hm : peek b 0 = marker
  · by_cases hs : b.length < 6 ∨ b.length < 8 + frameL b
    · exact .inr (.inr (.inl ⟨hm, hs, tryDecode_short hm hs⟩))
    · exact .inr (.inr (.inr ⟨hm, by omega, tryDecode_whole hm (by omega)⟩))
  · exact .inr (.inl ⟨h0, hm, tryDecode_notMarker h0 hm⟩)

/-- The checks of a whole frame read only the frame. -/
theorem wholeFrame_append_left (cfg : Config) {b : List Byte} (t : List Byte)
    (h : 8 + frameL b ≤ b.length) : wholeFrame cfg (b ++ t) = wholeFrame cfg b := by
  unfold wholeFrame
  rw [peek_append_left t (by omega), frameL_append_left t (by omega), rxCrc_append_left t h,
    slice_append_left t (by omega), peek_append_left t (by omega),
    List.take_append_of_le_length h]
  simp only [crcFrame_append_left t _ h]

/-- When a whole frame is accepted, and as what. -/
theorem wholeFrame_decoded {cfg : Config} {b f : List Byte} {n : Nat} :
    wholeFrame cfg b = .decoded n f ↔
      n = 8 + frameL b ∧ f = b.take (8 + frameL b) ∧ ∃ e, cfg.reg (peek b 5) = some e ∧
        e.len = peek b 1 ∧ crcFrame b e.seed = rxCrc b ∧
        cfg.unpackOk (peek b 5) (slice b 6 (5 + frameL b)) = true := by
  cases hr : cfg.reg (peek b 5) with
  | none => simp [wholeFrame, hr]
  | some e =>
    simp only [wholeFrame, hr, Option.some.injEq, exists_eq_left']
    by_cases hl : e.len = peek b 1
    · by_cases hc : crcFrame b e.seed = rxCrc b
      · by_cases hu : cfg.unpackOk (peek b 5) (slice b 6 (5 + frameL b)) = true
        · simp only [hl, hc, hu]
          simp [eq_comm]
        · simp [hl, hc, hu]
      · simp [hl, hc]
    · simp [hl]

end Sys2Proof.Machine
end

