-- ==== Sys2Proof/Laws/Encoding.lean ====
section
/-! SUPPORT. Reading the fields back from a word of the common layout, and a word put together again
from its fields (30_encoding.md R66). -/

namespace Sys2Proof

variable (op : Nibble) (a b c : Byte)

@[simp] theorem fieldOp_commandWord : fieldOp (commandWord op a b c) = op := by
  apply BitVec.eq_of_getElem_eq
  intro i hi
  interval_cases i <;> simp [fieldOp, commandWord]

@[simp] theorem fieldRsv_commandWord : fieldRsv (commandWord op a b c) = 0 := by
  apply BitVec.eq_of_getElem_eq
  intro i hi
  interval_cases i <;> simp [fieldRsv, commandWord]

@[simp] theorem fieldA_commandWord : fieldA (commandWord op a b c) = a := by
  apply BitVec.eq_of_getElem_eq
  intro i hi
  interval_cases i <;> simp [fieldA, commandWord]

@[simp] theorem fieldB_commandWord : fieldB (commandWord op a b c) = b := by
  apply BitVec.eq_of_getElem_eq
  intro i hi
  interval_cases i <;> simp [fieldB, commandWord]

@[simp] theorem fieldC_commandWord : fieldC (commandWord op a b c) = c := by
  apply BitVec.eq_of_getElem_eq
  intro i hi
  interval_cases i <;> simp [fieldC, commandWord]

/-- The count of format C, read back from the header's word (R72). -/
@[simp] theorem fieldN_encode_crc (n : Half) : fieldN (encode (.crc a n)) = n := by
  apply BitVec.eq_of_getElem_eq
  intro i hi
  interval_cases i <;> simp [fieldN, encode, commandWord]

/-- The CRC header as a word of the common layout. -/
theorem encode_crc (seed : Byte) (n : Half) :
    encode (.crc seed n) = commandWord 0x5 seed (n.extractLsb' 8 8) (n.extractLsb' 0 8) := by
  apply BitVec.eq_of_getElem_eq
  intro i hi
  interval_cases i <;> simp [encode, commandWord]

/-- A word whose reserved field is 0 is the word of its own fields. -/
theorem commandWord_fields {w : Word} (h : fieldRsv w = 0) :
    commandWord (fieldOp w) (fieldA w) (fieldB w) (fieldC w) = w := by
  have hr : ∀ k (hk : k < 4), (fieldRsv w)[k] = false := by simp [h]
  have h24 : w[24] = false := by simpa [fieldRsv] using hr 0 (by omega)
  have h25 : w[25] = false := by simpa [fieldRsv] using hr 1 (by omega)
  have h26 : w[26] = false := by simpa [fieldRsv] using hr 2 (by omega)
  have h27 : w[27] = false := by simpa [fieldRsv] using hr 3 (by omega)
  apply BitVec.eq_of_getElem_eq
  intro i hi
  interval_cases i <;> simp [commandWord, fieldOp, fieldA, fieldB, fieldC, h24, h25, h26, h27]

end Sys2Proof
end

