-- ==== Sys2Proof/Laws/State.lean ====
section
/-! SUPPORT. Reading the state back after each update: one lemma per field per update. -/

namespace Sys2Proof.Machine

variable (s : State)

/-! ### `setChan` -/

@[simp] theorem State.setChan_sq (c : Byte) (v : Channel) :
    (s.setChan c v).sq = s.sq := rfl

@[simp] theorem State.setChan_p (c : Byte) (v : Channel) :
    (s.setChan c v).p = s.p := rfl

@[simp] theorem State.setChan_fault (c : Byte) (v : Channel) :
    (s.setChan c v).fault = s.fault := rfl

@[simp] theorem State.setChan_out (c : Byte) (v : Channel) :
    (s.setChan c v).out = s.out := rfl

@[simp] theorem State.setChan_input (c : Byte) (v : Channel) :
    (s.setChan c v).input = s.input := rfl

/-! ### `setBuf` -/

@[simp] theorem State.setBuf_sq (c : Byte) (b : List Byte) :
    (s.setBuf c b).sq = s.sq := rfl

@[simp] theorem State.setBuf_p (c : Byte) (b : List Byte) :
    (s.setBuf c b).p = s.p := rfl

@[simp] theorem State.setBuf_fault (c : Byte) (b : List Byte) :
    (s.setBuf c b).fault = s.fault := rfl

@[simp] theorem State.setBuf_out (c : Byte) (b : List Byte) :
    (s.setBuf c b).out = s.out := rfl

@[simp] theorem State.setBuf_input (c : Byte) (b : List Byte) :
    (s.setBuf c b).input = s.input := rfl

/-! ### `setTxseq` -/

@[simp] theorem State.setTxseq_sq (c v : Byte) :
    (s.setTxseq c v).sq = s.sq := rfl

@[simp] theorem State.setTxseq_p (c v : Byte) :
    (s.setTxseq c v).p = s.p := rfl

@[simp] theorem State.setTxseq_fault (c v : Byte) :
    (s.setTxseq c v).fault = s.fault := rfl

@[simp] theorem State.setTxseq_out (c v : Byte) :
    (s.setTxseq c v).out = s.out := rfl

@[simp] theorem State.setTxseq_input (c v : Byte) :
    (s.setTxseq c v).input = s.input := rfl

/-! ### `setSq` -/

@[simp] theorem State.setSq_sq (q : Sequencer) :
    (s.setSq q).sq = q := rfl

@[simp] theorem State.setSq_p (q : Sequencer) :
    (s.setSq q).p = s.p := rfl

@[simp] theorem State.setSq_fault (q : Sequencer) :
    (s.setSq q).fault = s.fault := rfl

@[simp] theorem State.setSq_out (q : Sequencer) :
    (s.setSq q).out = s.out := rfl

@[simp] theorem State.setSq_input (q : Sequencer) :
    (s.setSq q).input = s.input := rfl

@[simp] theorem State.setSq_chan (q : Sequencer) (d : Byte) :
    (s.setSq q).chan d = s.chan d := rfl

@[simp] theorem State.setSq_buf (q : Sequencer) (d : Byte) :
    (s.setSq q).buf d = s.buf d := rfl

@[simp] theorem State.setSq_txseq (q : Sequencer) (d : Byte) :
    (s.setSq q).txseq d = s.txseq d := rfl

/-! ### `setLatches` -/

@[simp] theorem State.setLatches_sq (l : Latches) :
    (s.setLatches l).sq = s.sq := rfl

@[simp] theorem State.setLatches_p (l : Latches) :
    (s.setLatches l).p = l := rfl

@[simp] theorem State.setLatches_fault (l : Latches) :
    (s.setLatches l).fault = s.fault := rfl

@[simp] theorem State.setLatches_out (l : Latches) :
    (s.setLatches l).out = s.out := rfl

@[simp] theorem State.setLatches_input (l : Latches) :
    (s.setLatches l).input = s.input := rfl

@[simp] theorem State.setLatches_chan (l : Latches) (d : Byte) :
    (s.setLatches l).chan d = s.chan d := rfl

@[simp] theorem State.setLatches_buf (l : Latches) (d : Byte) :
    (s.setLatches l).buf d = s.buf d := rfl

@[simp] theorem State.setLatches_txseq (l : Latches) (d : Byte) :
    (s.setLatches l).txseq d = s.txseq d := rfl

/-! ### `setFault` -/

@[simp] theorem State.setFault_sq (f : FaultRecord) :
    (s.setFault f).sq = s.sq := rfl

@[simp] theorem State.setFault_p (f : FaultRecord) :
    (s.setFault f).p = s.p := rfl

@[simp] theorem State.setFault_fault (f : FaultRecord) :
    (s.setFault f).fault = some f := rfl

@[simp] theorem State.setFault_out (f : FaultRecord) :
    (s.setFault f).out = s.out := rfl

@[simp] theorem State.setFault_input (f : FaultRecord) :
    (s.setFault f).input = s.input := rfl

@[simp] theorem State.setFault_chan (f : FaultRecord) (d : Byte) :
    (s.setFault f).chan d = s.chan d := rfl

@[simp] theorem State.setFault_buf (f : FaultRecord) (d : Byte) :
    (s.setFault f).buf d = s.buf d := rfl

@[simp] theorem State.setFault_txseq (f : FaultRecord) (d : Byte) :
    (s.setFault f).txseq d = s.txseq d := rfl

/-! ### `setInput` -/

@[simp] theorem State.setInput_sq (is : List PortInput) :
    (s.setInput is).sq = s.sq := rfl

@[simp] theorem State.setInput_p (is : List PortInput) :
    (s.setInput is).p = s.p := rfl

@[simp] theorem State.setInput_fault (is : List PortInput) :
    (s.setInput is).fault = s.fault := rfl

@[simp] theorem State.setInput_out (is : List PortInput) :
    (s.setInput is).out = s.out := rfl

@[simp] theorem State.setInput_input (is : List PortInput) :
    (s.setInput is).input = is := rfl

@[simp] theorem State.setInput_chan (is : List PortInput) (d : Byte) :
    (s.setInput is).chan d = s.chan d := rfl

@[simp] theorem State.setInput_buf (is : List PortInput) (d : Byte) :
    (s.setInput is).buf d = s.buf d := rfl

@[simp] theorem State.setInput_txseq (is : List PortInput) (d : Byte) :
    (s.setInput is).txseq d = s.txseq d := rfl

/-! ### `emits` -/

@[simp] theorem State.emits_sq (es : List Event) :
    (s.emits es).sq = s.sq := rfl

@[simp] theorem State.emits_p (es : List Event) :
    (s.emits es).p = s.p := rfl

@[simp] theorem State.emits_fault (es : List Event) :
    (s.emits es).fault = s.fault := rfl

@[simp] theorem State.emits_out (es : List Event) :
    (s.emits es).out = s.out ++ es := rfl

@[simp] theorem State.emits_input (es : List Event) :
    (s.emits es).input = s.input := rfl

@[simp] theorem State.emits_chan (es : List Event) (d : Byte) :
    (s.emits es).chan d = s.chan d := rfl

@[simp] theorem State.emits_buf (es : List Event) (d : Byte) :
    (s.emits es).buf d = s.buf d := rfl

@[simp] theorem State.emits_txseq (es : List Event) (d : Byte) :
    (s.emits es).txseq d = s.txseq d := rfl

/-! ### The channel file -/

@[simp] theorem State.setChan_chan_same (c : Byte) (v : Channel) : (s.setChan c v).chan c = v := by
  simp [State.setChan, State.chan]

@[simp] theorem State.setChan_chan_ne {c d : Byte} (v : Channel) (h : d ≠ c) :
    (s.setChan c v).chan d = s.chan d := by
  have hn : c.toNat ≠ d.toNat := fun e => h (BitVec.eq_of_toNat_eq e.symm)
  simp [State.setChan, State.chan, Vector.getElem_set_ne _ _ hn]

@[simp] theorem State.setBuf_buf_same (c : Byte) (b : List Byte) : (s.setBuf c b).buf c = b := by
  simp [State.setBuf, State.buf]

@[simp] theorem State.setBuf_buf_ne {c d : Byte} (b : List Byte) (h : d ≠ c) :
    (s.setBuf c b).buf d = s.buf d := by
  simp [State.setBuf, State.buf, h]

@[simp] theorem State.setBuf_chan_ne {c d : Byte} (b : List Byte) (h : d ≠ c) :
    (s.setBuf c b).chan d = s.chan d := by
  simp [State.setBuf, h]

@[simp] theorem State.setBuf_txseq (c : Byte) (b : List Byte) (d : Byte) :
    (s.setBuf c b).txseq d = s.txseq d := by
  by_cases h : d = c
  · subst h; simp [State.setBuf, State.txseq]
  · simp [State.setBuf, State.txseq, h]

@[simp] theorem State.setTxseq_txseq_same (c v : Byte) : (s.setTxseq c v).txseq c = v := by
  simp [State.setTxseq, State.txseq]

@[simp] theorem State.setTxseq_txseq_ne {c d : Byte} (v : Byte) (h : d ≠ c) :
    (s.setTxseq c v).txseq d = s.txseq d := by
  simp [State.setTxseq, State.txseq, h]

@[simp] theorem State.setTxseq_chan_ne {c d : Byte} (v : Byte) (h : d ≠ c) :
    (s.setTxseq c v).chan d = s.chan d := by
  simp [State.setTxseq, h]

@[simp] theorem State.setTxseq_buf (c v d : Byte) : (s.setTxseq c v).buf d = s.buf d := by
  by_cases h : d = c
  · subst h; simp [State.setTxseq, State.buf]
  · simp [State.setTxseq, State.buf, h]

/-- Two states are equal when their fields are, the channel file entry by entry. -/
theorem State.ext_chan {s t : State} (hc : ∀ c, s.chan c = t.chan c) (hq : s.sq = t.sq)
    (hp : s.p = t.p) (hf : s.fault = t.fault) (ho : s.out = t.out) (hi : s.input = t.input) :
    s = t := by
  obtain ⟨cs, q, p, f, o, i⟩ := s
  obtain ⟨ct, q', p', f', o', i'⟩ := t
  have hcs : cs = ct := by
    apply Vector.ext
    intro k hk
    have := hc (BitVec.ofNat 8 k)
    have hm : k % 256 = k := Nat.mod_eq_of_lt hk
    simpa [State.chan, hm] using this
  simp_all

/-- A channel is its buffer and its counter. -/
theorem State.chan_eq_of_parts {s t : State} {c : Byte} (hb : s.buf c = t.buf c)
    (hx : s.txseq c = t.txseq c) : s.chan c = t.chan c := by
  cases hs : s.chan c
  cases ht : t.chan c
  simp_all [State.buf, State.txseq]

/-- Writing a buffer back what it holds changes nothing. -/
@[simp] theorem State.setBuf_buf_self (c : Byte) : s.setBuf c (s.buf c) = s := by
  refine State.ext_chan (fun d => ?_) rfl rfl rfl rfl rfl
  by_cases h : d = c
  · subst h; simp [State.setBuf, State.buf]
  · simp [h]

/-- The later of two writes to one buffer stands. -/
@[simp] theorem State.setBuf_setBuf (c : Byte) (b b' : List Byte) :
    (s.setBuf c b).setBuf c b' = s.setBuf c b' := by
  refine State.ext_chan (fun d => ?_) rfl rfl rfl rfl rfl
  by_cases h : d = c
  · subst h; simp [State.setBuf]
  · simp [h]

/-! ### Emitting -/

@[simp] theorem State.emits_nil : s.emits [] = s := by simp [State.emits]

@[simp] theorem State.emits_emits (es fs : List Event) :
    (s.emits es).emits fs = s.emits (es ++ fs) := by simp [State.emits]

/-- Emitting and writing a buffer commute. -/
theorem State.emits_setBuf (es : List Event) (c : Byte) (b : List Byte) :
    (s.emits es).setBuf c b = (s.setBuf c b).emits es := rfl

/-! ### `latches` -/

@[simp] theorem Latches.validIn_idle (l : Latches) : l.validIn .idle = Latches.empty := rfl

@[simp] theorem Latches.validIn_sendId (l : Latches) : l.validIn .sendId =
    { Latches.empty with ch := l.ch, msgid := l.msgid, plen := l.plen } := rfl

@[simp] theorem Latches.validIn_sendData (l : Latches) : l.validIn .sendData =
    { Latches.empty with
      ch := l.ch, msgid := l.msgid, plen := l.plen, sysid := l.sysid, compid := l.compid
      pay := l.pay } := rfl

@[simp] theorem Latches.validIn_crcData (l : Latches) : l.validIn .crcData =
    { Latches.empty with seed := l.seed, rem := l.rem, acc := l.acc } := rfl

@[simp] theorem State.latches_of_idle (h : s.sq = .idle) : s.latches = Latches.empty := by
  rw [State.latches, h, Latches.validIn_idle]

@[simp] theorem State.latches_of_sendId (h : s.sq = .sendId) : s.latches =
    { Latches.empty with ch := s.p.ch, msgid := s.p.msgid, plen := s.p.plen } := by
  rw [State.latches, h, Latches.validIn_sendId]

@[simp] theorem State.latches_of_sendData (h : s.sq = .sendData) : s.latches =
    { Latches.empty with
      ch := s.p.ch, msgid := s.p.msgid, plen := s.p.plen, sysid := s.p.sysid
      compid := s.p.compid, pay := s.p.pay } := by
  rw [State.latches, h, Latches.validIn_sendData]

@[simp] theorem State.latches_of_crcData (h : s.sq = .crcData) : s.latches =
    { Latches.empty with seed := s.p.seed, rem := s.p.rem, acc := s.p.acc } := by
  rw [State.latches, h, Latches.validIn_crcData]

@[simp] theorem State.setSq_latches (q : Sequencer) : (s.setSq q).latches = s.p.validIn q := rfl

@[simp] theorem State.setLatches_latches (l : Latches) :
    (s.setLatches l).latches = l.validIn s.sq := rfl

@[simp] theorem State.closeCommand_latches : s.closeCommand.latches = Latches.empty := rfl

@[simp] theorem State.setFault_latches (f : FaultRecord) : (s.setFault f).latches = s.latches := rfl

@[simp] theorem State.setInput_latches (i : List PortInput) :
    (s.setInput i).latches = s.latches := rfl

@[simp] theorem State.emits_latches (es : List Event) : (s.emits es).latches = s.latches := rfl

@[simp] theorem State.setBuf_latches (c : Byte) (b : List Byte) :
    (s.setBuf c b).latches = s.latches := rfl

@[simp] theorem State.setTxseq_latches (c v : Byte) : (s.setTxseq c v).latches = s.latches := rfl

/-! ### `closeCommand`, `cmdError` and `resetBlock` -/

@[simp] theorem State.closeCommand_sq : s.closeCommand.sq = .idle := rfl

@[simp] theorem State.closeCommand_p : s.closeCommand.p = Latches.empty := rfl

@[simp] theorem State.closeCommand_fault : s.closeCommand.fault = s.fault := rfl

@[simp] theorem State.closeCommand_out : s.closeCommand.out = s.out := rfl

@[simp] theorem State.closeCommand_input : s.closeCommand.input = s.input := rfl

@[simp] theorem State.closeCommand_chan (c : Byte) : s.closeCommand.chan c = s.chan c := rfl

@[simp] theorem State.closeCommand_buf (c : Byte) : s.closeCommand.buf c = s.buf c := rfl

@[simp] theorem State.closeCommand_txseq (c : Byte) : s.closeCommand.txseq c = s.txseq c := rfl

/-- A command error is one event and nothing else (60_exceptions.md R150). -/
@[simp] theorem cmdError_eq (code : ErrorCode) (ch : Byte) (info : Half) :
    cmdError code ch info s = s.emits [.error code ch info] := rfl

@[simp] theorem resetBlock_sq : (resetBlock s).sq = .idle := rfl

@[simp] theorem resetBlock_p : (resetBlock s).p = Latches.empty := rfl

@[simp] theorem resetBlock_fault : (resetBlock s).fault = none := rfl

@[simp] theorem resetBlock_out : (resetBlock s).out = s.out := rfl

@[simp] theorem resetBlock_input : (resetBlock s).input = s.input := rfl

@[simp] theorem reset_chan (c : Byte) : State.reset.chan c = Channel.reset := by
  simp [State.chan, State.reset]

@[simp] theorem resetBlock_chan (c : Byte) : (resetBlock s).chan c = Channel.reset :=
  reset_chan c

@[simp] theorem resetBlock_buf (c : Byte) : (resetBlock s).buf c = [] := by
  simp [State.buf, Channel.reset]

@[simp] theorem resetBlock_txseq (c : Byte) : (resetBlock s).txseq c = 0 := by
  simp [State.txseq, Channel.reset]

end Sys2Proof.Machine
end

