-- ==== Sys2Proof/Laws/Ops.lean ====
section
/-! SUPPORT. What each shared operation can do, said once: to be cited instead of unfolded. -/

namespace Sys2Proof.Machine

/-! ### Latches and the sequencer -/

/-- Reading a latch answers a next state exactly when it holds a value and the rest does. -/
theorem readLatch_next {α : Type} {name : LatchName} {latch : Option α} {k : α → Answer} {t : State} :
    readLatch name latch k = .next t ↔ ∃ v, latch = some v ∧ k v = .next t := by
  cases latch <;> simp [readLatch]

@[simp] theorem readLatch_some {α : Type} (name : LatchName) (v : α) (k : α → Answer) :
    readLatch name (some v) k = k v := rfl

@[simp] theorem readLatch_none {α : Type} (name : LatchName) (k : α → Answer) :
    readLatch name none k = .fault (.emptyLatch name) := rfl

theorem whenIdle_idle {op : Nibble} {s : State} {k : Answer} (h : s.sq = .idle) :
    whenIdle op s k = k := by simp [whenIdle, h]

theorem whenIdle_open {op : Nibble} {s : State} {k : Answer} (h : s.sq ≠ .idle) :
    whenIdle op s k = abort op s := by simp [whenIdle, h]

/-- The opcode and the channel an abort reports: those of the open command (42_session.md R131). -/
def Opened (s : State) (k : Nibble) (ch : Byte) : Prop :=
  (s.sq = .crcData ∧ k = 0x5 ∧ ch = 0) ∨ (s.sq ≠ .crcData ∧ k = 0x2 ∧ s.latches.ch = some ch)

/-- An abort answers a next state exactly when it knows the open command's channel. -/
theorem abort_next {op : Nibble} {s t : State} :
    abort op s = .next t ↔ ∃ k ch, Opened s k ch ∧ t = abortWith op k ch s := by
  unfold abort Opened
  split <;> rename_i h
  · constructor
    · intro ht
      cases ht; exact ⟨0x5, 0, .inl ⟨h, rfl, rfl⟩, rfl⟩
    · rintro ⟨k, ch, ⟨-, rfl, rfl⟩ | ⟨h', -⟩, rfl⟩
      · rfl
      · exact absurd h h'
  · simp only [readLatch_next]
    constructor
    · rintro ⟨ch, hc, ht⟩
      exact ⟨0x2, ch, .inr ⟨h, rfl, hc⟩, by simpa [eq_comm] using ht⟩
    · rintro ⟨k, ch, ⟨h', -⟩ | ⟨-, rfl, hc⟩, rfl⟩
      · exact absurd h' h
      · exact ⟨ch, hc, rfl⟩

/-- An abort of an open SEND reports the SEND's channel. -/
theorem abort_send {op : Nibble} {s : State} {ch : Byte} (hq : s.sq = .sendId ∨ s.sq = .sendData)
    (hc : s.p.ch = some ch) : abort op s = .next (abortWith op 0x2 ch s) := by
  refine abort_next.2 ⟨0x2, ch, .inr ⟨?_, rfl, ?_⟩, rfl⟩ <;> rcases hq with hq | hq <;> simp [hq, hc]

/-- An abort closes the command and emits its error; the channel file, FAULT and the inputs stay. -/
theorem abortWith_eq (op k : Nibble) (ch : Byte) (s : State) :
    abortWith op k ch s = s.closeCommand.emits [.error .aborted ch (infoOfAbort op k)] := rfl

/-! ### FEED -/

/-- What FEED in IDLE can do: refuse the channel, find the buffer full, or push and drain (R123). -/
theorem feed_cases (cfg : Config) (c x : Byte) (s : State) :
    (cfg.nch ≤ c.toNat ∧ feed cfg c x s = s.emits [.error .channel c 0x1000]) ∨
    (c.toNat < cfg.nch ∧ (s.buf c).length = 263 ∧ feed cfg c x s = s.setFault (.bufFull c)) ∨
    (c.toNat < cfg.nch ∧ (s.buf c).length ≠ 263 ∧
      feed cfg c x s = drainInto cfg c (s.buf c ++ [x]) s) := by
  unfold feed push bufDepth
  by_cases hc : cfg.nch ≤ c.toNat
  · simp [hc]
  · by_cases hf : (s.buf c).length = 263 <;> simp [hc, hf] <;> omega

/-- The drain loop on an empty buffer. -/
@[simp] theorem drainLoop_nil (cfg : Config) (c : Byte) (n : Nat) :
    drainLoop cfg c n [] = ([], []) := by cases n <;> rfl

/-- A round that needs more bytes. -/
theorem drainLoop_need {cfg : Config} {c x : Byte} {b : List Byte} {n : Nat}
    (h : tryDecode cfg (x :: b) = .need) : drainLoop cfg c (n + 1) (x :: b) = ([], x :: b) := by
  simp [drainLoop, h]

/-- A round that drops the head byte. -/
theorem drainLoop_invalid {cfg : Config} {c x : Byte} {b : List Byte} {n : Nat} {r : DiscardReason}
    (h : tryDecode cfg (x :: b) = .invalid r) :
    drainLoop cfg c (n + 1) (x :: b) =
      (.discard c r x :: (drainLoop cfg c n b).1, (drainLoop cfg c n b).2) := by
  simp [drainLoop, h, dropHead]

/-- A round that takes a frame. -/
theorem drainLoop_decoded {cfg : Config} {c x : Byte} {b f : List Byte} {n k : Nat}
    (h : tryDecode cfg (x :: b) = .decoded k f) :
    drainLoop cfg c (n + 1) (x :: b) =
      (.decoded c f :: (drainLoop cfg c n ((x :: b).drop k)).1,
        (drainLoop cfg c n ((x :: b).drop k)).2) := by
  simp [drainLoop, h, dropHead]

@[simp] theorem drainInto_sq (cfg : Config) (c : Byte) (b : List Byte) (s : State) :
    (drainInto cfg c b s).sq = s.sq := rfl

@[simp] theorem drainInto_p (cfg : Config) (c : Byte) (b : List Byte) (s : State) :
    (drainInto cfg c b s).p = s.p := rfl

@[simp] theorem drainInto_fault (cfg : Config) (c : Byte) (b : List Byte) (s : State) :
    (drainInto cfg c b s).fault = s.fault := rfl

@[simp] theorem drainInto_input (cfg : Config) (c : Byte) (b : List Byte) (s : State) :
    (drainInto cfg c b s).input = s.input := rfl

@[simp] theorem drainInto_out (cfg : Config) (c : Byte) (b : List Byte) (s : State) :
    (drainInto cfg c b s).out = s.out ++ (drain cfg c b).1 := rfl

@[simp] theorem drainInto_buf_same (cfg : Config) (c : Byte) (b : List Byte) (s : State) :
    (drainInto cfg c b s).buf c = (drain cfg c b).2 := by simp [drainInto]

theorem drainInto_chan_ne (cfg : Config) {c d : Byte} (b : List Byte) (s : State) (h : d ≠ c) :
    (drainInto cfg c b s).chan d = s.chan d := by simp [drainInto, h]

@[simp] theorem drainInto_txseq (cfg : Config) (c : Byte) (b : List Byte) (s : State) (d : Byte) :
    (drainInto cfg c b s).txseq d = s.txseq d := by simp [drainInto]

/-! ### The end of a SEND -/

/-- What SEND_COMPLETE can do, its checks in order (R129). -/
theorem sendResult_cases (cfg : Config) (c id sy co : Byte) (p : List Byte) (s : State) :
    (cfg.nch ≤ c.toNat ∧
      sendResult cfg c id sy co p s = s.closeCommand.emits [.error .channel c 0x2000]) ∨
    (c.toNat < cfg.nch ∧ cfg.reg id = none ∧
      sendResult cfg c id sy co p s = s.closeCommand.emits [.error .unknownMsgid c (byteToHalf id)]) ∨
    (∃ e, c.toNat < cfg.nch ∧ cfg.reg id = some e ∧ e.len.toNat ≠ p.length ∧
      sendResult cfg c id sy co p s =
        s.closeCommand.emits [.error .lenMismatch c (infoOfLengths e.len p.length)]) ∨
    (∃ e, c.toNat < cfg.nch ∧ cfg.reg id = some e ∧ e.len.toNat = p.length ∧
      sendResult cfg c id sy co p s =
        (s.closeCommand.emits [.sent c (encodeFrame id sy co (s.txseq c) p e.seed)]).setTxseq c
          (s.txseq c + 1)) := by
  unfold sendResult
  by_cases hc : cfg.nch ≤ c.toNat
  · simp [hc]
  · cases hr : cfg.reg id with
    | none => simp [hc]; omega
    | some e => by_cases hl : e.len.toNat = p.length <;> simp [hc, hl] <;> omega

/-- SEND_COMPLETE answers a next state exactly when every latch it reads holds a value. -/
theorem sendComplete_next {cfg : Config} {s t : State} :
    sendComplete cfg s = .next t ↔ ∃ c id p sy co, s.latches.ch = some c ∧
      s.latches.msgid = some id ∧ s.latches.pay = some p ∧ s.latches.sysid = some sy ∧
      s.latches.compid = some co ∧ t = sendResult cfg c id sy co p s := by
  simp only [sendComplete, readLatch_next]
  constructor
  · rintro ⟨c, hc, id, hi, p, hp, sy, hs, co, ho, ht⟩
    exact ⟨c, id, p, sy, co, hc, hi, hp, hs, ho, by simpa [eq_comm] using ht⟩
  · rintro ⟨c, id, p, sy, co, hc, hi, hp, hs, ho, rfl⟩
    exact ⟨c, hc, id, hi, p, hp, sy, hs, co, ho, rfl⟩

/-- The end of a SEND does not depend on what the latches are written just before. -/
@[simp] theorem sendResult_setLatches (cfg : Config) (c id sy co : Byte) (p : List Byte) (s : State)
    (l : Latches) : sendResult cfg c id sy co p (s.setLatches l) = sendResult cfg c id sy co p s := rfl

/-- Nor on where the sequencer stands just before. -/
@[simp] theorem sendResult_setSq (cfg : Config) (c id sy co : Byte) (p : List Byte) (s : State)
    (q : Sequencer) : sendResult cfg c id sy co p (s.setSq q) = sendResult cfg c id sy co p s := rfl

/-- The end of a CRC does not depend on what the latches are written just before. -/
@[simp] theorem crcComplete_setLatches (acc : Half) (seed : Byte) (s : State) (l : Latches) :
    crcComplete acc seed (s.setLatches l) = crcComplete acc seed s := rfl

/-- SENDID with payload to come (R127). -/
theorem sendIds_more {cfg : Config} {s : State} {sy co n : Byte} (hq : s.sq = .sendId)
    (hn : s.p.plen = some n) (h0 : n ≠ 0) : sendIds cfg sy co s =
      .next ((s.setLatches { s.p with sysid := some sy, compid := some co }).setSq .sendData) := by
  simp only [sendIds, s.latches_of_sendId hq, hn, readLatch_some, if_neg h0]

/-- SENDID with no payload to come (R127). -/
theorem sendIds_last {cfg : Config} {s : State} {sy co c id : Byte} {p : List Byte}
    (hq : s.sq = .sendId) (hn : s.p.plen = some 0) (hc : s.p.ch = some c)
    (hi : s.p.msgid = some id) (hp : s.p.pay = some p) :
    sendIds cfg sy co s = .next (sendResult cfg c id sy co p s) := by
  simp only [sendIds, s.latches_of_sendId hq, hn, readLatch_some, if_pos]
  exact sendComplete_next.2 ⟨c, id, p, sy, co, hc, hi, hp, rfl, rfl, rfl⟩

/-- DATA before the last payload byte (R128). -/
theorem sendData_more {cfg : Config} {s : State} {x n : Byte} {p : List Byte}
    (hq : s.sq = .sendData) (hp : s.p.pay = some p) (hn : s.p.plen = some n)
    (hl : p.length + 1 ≠ n.toNat) :
    sendData cfg x s = .next (s.setLatches { s.p with pay := some (p ++ [x]) }) := by
  simp only [sendData, s.latches_of_sendData hq, hp, hn, readLatch_some, List.length_append,
    List.length_singleton, if_neg hl]

/-- DATA that is the last payload byte (R128). -/
theorem sendData_last {cfg : Config} {s : State} {x n c id sy co : Byte} {p : List Byte}
    (hq : s.sq = .sendData) (hp : s.p.pay = some p) (hn : s.p.plen = some n)
    (hl : p.length + 1 = n.toNat) (hc : s.p.ch = some c) (hi : s.p.msgid = some id)
    (hs : s.p.sysid = some sy) (ho : s.p.compid = some co) :
    sendData cfg x s = .next (sendResult cfg c id sy co (p ++ [x]) s) := by
  simp only [sendData, s.latches_of_sendData hq, hp, hn, readLatch_some, List.length_append,
    List.length_singleton, if_pos hl]
  refine sendComplete_next.2 ⟨c, id, p ++ [x], sy, co, ?_⟩
  simp [hq, hc, hi, hs, ho]

/-- DATA of a CRC before the last byte (R128). -/
theorem crcData_more {s : State} {x : Byte} {a r : Half} (hq : s.sq = .crcData)
    (ha : s.p.acc = some a) (hr : s.p.rem = some r) (h0 : r - 1 ≠ 0) : crcData x s =
      .next (s.setLatches { s.p with acc := some (crcAcc a x), rem := some (r - 1) }) := by
  simp only [crcData, s.latches_of_crcData hq, ha, hr, readLatch_some, if_neg h0]

/-- DATA of a CRC that is the last byte (R128). -/
theorem crcData_last {s : State} {x e : Byte} {a r : Half} (hq : s.sq = .crcData)
    (ha : s.p.acc = some a) (hr : s.p.rem = some r) (h0 : r - 1 = 0) (he : s.p.seed = some e) :
    crcData x s = .next (crcComplete (crcAcc a x) e s) := by
  simp only [crcData, s.latches_of_crcData hq, ha, hr, he, readLatch_some, if_pos h0,
    crcComplete_setLatches]

/-- What the CRC header in IDLE can do: complete at once, or wait for data (40_checksum.md R95). -/
theorem crcHeader_cases (e : Byte) (n : Half) (s : State) :
    (n = 0 ∧ crcHeader e n s = s.closeCommand.emits [.crc (checksum [] e)]) ∨
    (n ≠ 0 ∧ crcHeader e n s =
      (s.setLatches { s.p with seed := some e, acc := some crcInit, rem := some n }).setSq
        .crcData) := by
  by_cases hn : n = 0
  · exact .inl ⟨hn, by simp only [crcHeader, if_pos hn]; rfl⟩
  · exact .inr ⟨hn, by simp only [crcHeader, if_neg hn]⟩

/-! ### Every command -/

/-- `Effect cfg s i t`: command `i` takes `s` to `t`, by one rule of 42_session.md or 40_checksum.md
per constructor. -/
inductive Effect (cfg : Config) (s : State) : Instr → State → Prop where
  | nop : Effect cfg s .nop s
  | feed (c x : Byte) : s.sq = .idle → Effect cfg s (.feed c x) (Machine.feed cfg c x s)
  | send (c id n : Byte) : s.sq = .idle → Effect cfg s (.send c id n) (sendHeader c id n s)
  | crc (e : Byte) (n : Half) : s.sq = .idle → Effect cfg s (.crc e n) (crcHeader e n s)
  | strayId (sy co : Byte) : s.sq = .idle → Effect cfg s (.sendid sy co) (sequenceError 0x3 s)
  | strayData (x : Byte) : s.sq = .idle → Effect cfg s (.data x) (sequenceError 0x4 s)
  | aborted (i : Instr) (k : Nibble) (ch : Byte) : s.sq ≠ .idle → Opened s k ch →
      Effect cfg s i (abortWith i.opcode k ch s)
  | ids (sy co n : Byte) : s.sq = .sendId → s.p.plen = some n → n ≠ 0 →
      Effect cfg s (.sendid sy co)
        ((s.setLatches { s.p with sysid := some sy, compid := some co }).setSq .sendData)
  | idsLast (sy co c id : Byte) (p : List Byte) : s.sq = .sendId → s.p.plen = some 0 →
      s.p.ch = some c → s.p.msgid = some id → s.p.pay = some p →
      Effect cfg s (.sendid sy co) (sendResult cfg c id sy co p s)
  | payload (x n : Byte) (p : List Byte) : s.sq = .sendData → s.p.pay = some p →
      s.p.plen = some n → p.length + 1 ≠ n.toNat →
      Effect cfg s (.data x) (s.setLatches { s.p with pay := some (p ++ [x]) })
  | payloadLast (x n c id sy co : Byte) (p : List Byte) : s.sq = .sendData → s.p.pay = some p →
      s.p.plen = some n → p.length + 1 = n.toNat → s.p.ch = some c → s.p.msgid = some id →
      s.p.sysid = some sy → s.p.compid = some co →
      Effect cfg s (.data x) (sendResult cfg c id sy co (p ++ [x]) s)
  | fold (x : Byte) (a r : Half) : s.sq = .crcData → s.p.acc = some a → s.p.rem = some r →
      r - 1 ≠ 0 → Effect cfg s (.data x)
        (s.setLatches { s.p with acc := some (crcAcc a x), rem := some (r - 1) })
  | foldLast (x : Byte) (a r : Half) (e : Byte) : s.sq = .crcData → s.p.acc = some a →
      s.p.rem = some r → r - 1 = 0 → s.p.seed = some e →
      Effect cfg s (.data x) (crcComplete (crcAcc a x) e s)

/-- A command legal only in IDLE answers its own effect there and an abort elsewhere. -/
theorem effect_of_whenIdle {cfg : Config} {s t u : State} {i : Instr}
    (hi : s.sq = .idle → Effect cfg s i u) (h : whenIdle i.opcode s (.next u) = .next t) :
    Effect cfg s i t := by
  by_cases hq : s.sq = .idle
  · rw [whenIdle_idle hq] at h
    cases h; exact hi hq
  · rw [whenIdle_open hq] at h
    obtain ⟨k, ch, ho, rfl⟩ := abort_next.1 h
    exact .aborted i k ch hq ho

/-- Whatever a command answers as a next state is one of its effects. -/
theorem effect_of_execIn {cfg : Config} {i : Instr} {s t : State} (h : execIn cfg i s = .next t) :
    Effect cfg s i t := by
  cases i with
  | nop => cases h; exact .nop
  | feed c x => exact effect_of_whenIdle (i := .feed c x) (.feed c x) h
  | send c id n => exact effect_of_whenIdle (i := .send c id n) (.send c id n) h
  | crc e n => exact effect_of_whenIdle (i := .crc e n) (.crc e n) h
  | sendid sy co =>
    simp only [execIn, sendidIn] at h
    split at h <;> rename_i hq
    · cases h; exact .strayId sy co hq
    · simp only [sendIds, readLatch_next, s.latches_of_sendId hq] at h
      obtain ⟨n, hn, h⟩ := h
      split at h
      · rename_i h0
        subst h0
        obtain ⟨c, id, p, sy', co', hc, hi, hp, hs, ho, rfl⟩ := sendComplete_next.1 h
        cases hs; cases ho
        exact .idsLast sy co c id p hq hn hc hi hp
      · rename_i h0
        cases h; exact .ids sy co n hq hn h0
    all_goals
      obtain ⟨k, ch, ho, rfl⟩ := abort_next.1 h
      exact .aborted (.sendid sy co) k ch (by simp [hq]) ho
  | data x =>
    simp only [execIn, dataIn] at h
    split at h <;> rename_i hq
    · cases h; exact .strayData x hq
    · obtain ⟨k, ch, ho, rfl⟩ := abort_next.1 h
      exact .aborted (.data x) k ch (by simp [hq]) ho
    · simp only [sendData, readLatch_next, s.latches_of_sendData hq] at h
      obtain ⟨p, hp, n, hn, h⟩ := h
      split at h <;> rename_i hl <;> simp only [List.length_append, List.length_singleton] at hl
      · obtain ⟨c, id, p', sy, co, hc, hi, hp', hs, ho, rfl⟩ := sendComplete_next.1 h
        simp only [State.setLatches_latches, hq, Latches.validIn] at hc hi hp' hs ho
        cases hp'
        exact .payloadLast x n c id sy co p hq hp hn hl hc hi hs ho
      · cases h; exact .payload x n p hq hp hn hl
    · simp only [crcData, readLatch_next, s.latches_of_crcData hq] at h
      obtain ⟨a, ha, r, hr, h⟩ := h
      split at h <;> rename_i hl
      · obtain ⟨e, he, h⟩ := readLatch_next.1 h
        cases h; exact .foldLast x a r e hq ha hr hl he
      · cases h; exact .fold x a r hq ha hr hl

/-- `exec` is `execIn` under the machine's own configuration. -/
theorem execIn_chip (i : Instr) (s : State) : execIn Config.chip i s = exec i s := by
  cases i <;> rfl

/-- Whatever `exec` answers as a next state is one of the command's effects. -/
theorem effect_of_exec {i : Instr} {s t : State} (h : exec i s = .next t) :
    Effect Config.chip s i t := effect_of_execIn (by rw [execIn_chip, h])

/-- No command touches what waits on the inputs. -/
theorem effect_input {cfg : Config} {i : Instr} {s t : State} (h : Effect cfg s i t) :
    t.input = s.input := by
  cases h with
  | feed c x =>
    rcases feed_cases cfg c x s with ⟨-, h⟩ | ⟨-, -, h⟩ | ⟨-, -, h⟩ <;> rw [h] <;> rfl
  | crc e n => rcases crcHeader_cases e n s with ⟨-, h⟩ | ⟨-, h⟩ <;> rw [h] <;> rfl
  | idsLast sy co c id p =>
    rcases sendResult_cases cfg c id sy co p s with ⟨-, h⟩ | ⟨-, -, h⟩ | ⟨e, -, -, -, h⟩ |
      ⟨e, -, -, -, h⟩ <;> rw [h] <;> rfl
  | payloadLast x n c id sy co p =>
    rcases sendResult_cases cfg c id sy co (p ++ [x]) s with ⟨-, h⟩ | ⟨-, -, h⟩ | ⟨e, -, -, -, h⟩ |
      ⟨e, -, -, -, h⟩ <;> rw [h] <;> rfl
  | _ => rfl

/-! ### Steps -/

/-- What an illegal word can do (42_session.md R122, R131). -/
theorem illegalWord_next {op : Nibble} {s t : State} (h : illegalWord op s = .next t) :
    (s.sq = .idle ∧ t = illegal op s) ∨
    (s.sq ≠ .idle ∧ ∃ k ch, Opened s k ch ∧ t = abortWith op k ch s) := by
  by_cases hq : s.sq = .idle
  · rw [illegalWord, whenIdle_idle hq] at h
    cases h; exact .inl ⟨hq, rfl⟩
  · rw [illegalWord, whenIdle_open hq] at h
    exact .inr ⟨hq, abort_next.1 h⟩

/-- What a step can do: wait, reset, run a legal word, or report an illegal one. -/
theorem step_next {s t : State} (h : step s = .next t) :
    (s.input = [] ∧ s.fault = none ∧ t = s) ∨
    (∃ rest, s.input = .reset :: rest ∧ t = resetBlock (s.setInput rest)) ∨
    (∃ w rest i, s.input = .word w :: rest ∧ s.fault = none ∧ decode w = .ok i ∧
      exec i (s.setInput rest) = .next t) ∨
    (∃ w rest e, s.input = .word w :: rest ∧ s.fault = none ∧ decode w = .error e ∧
      illegalWord (fieldOp w) (s.setInput rest) = .next t) := by
  unfold step fetch at h
  split at h <;> rename_i hf <;> split at hf <;> rename_i hin
  all_goals (try split at hf) <;> (try split at hf) <;> simp_all

end Sys2Proof.Machine
end

