-- ==== Sys2Proof/Laws/PerInstr.lean ====
section
/-! SUPPORT. What holds of every command as syntax, one lemma per constructor. -/

/-- The word of a command carries the command's opcode in OP and 0 in RSV (30_encoding.md R66, R73). -/
def Sys2Proof.Laws.OpcodeField.Statement (i : Sys2Proof.Instr) : Prop :=
  Sys2Proof.fieldOp (Sys2Proof.encode i) = i.opcode ∧ Sys2Proof.fieldRsv (Sys2Proof.encode i) = 0

namespace Sys2Proof.Laws.OpcodeField

theorem nop : Statement .nop := by
  unfold Statement
  decide

theorem feed (ch byte : Byte) : Statement (.feed ch byte) := by
  simp [Statement, encode, Instr.opcode]

theorem send (ch msgid plen : Byte) : Statement (.send ch msgid plen) := by
  simp [Statement, encode, Instr.opcode]

theorem sendid (sysid compid : Byte) : Statement (.sendid sysid compid) := by
  simp [Statement, encode, Instr.opcode]

theorem data (byte : Byte) : Statement (.data byte) := by
  simp [Statement, encode, Instr.opcode]

theorem crc (seed : Byte) (n : Half) : Statement (.crc seed n) := by
  simp [Statement, encode_crc, Instr.opcode]

end Sys2Proof.Laws.OpcodeField
end

