-- ==== Sys2Proof/Laws/Safety.lean ====
section
/-! SUPPORT. The terms of Safety.lean: runs as the host's, the drain's rounds, the SENT events of a
stream. -/

namespace Sys2Proof.Machine

/-- `steps` is the host's run of the machine's core. -/
theorem steps_eq_run (k : Nat) (s : State) : steps k s = core.run k s := by
  induction k generalizing s with
  | zero => rfl
  | succ k ih =>
    simp only [steps, Host.Core.run]
    cases h : step s with
    | next t => simpa [show core.step s = .next t from h] using ih t
    | fault f => simp only [show core.step s = .fault f from h]; rfl
    | refused r => simp only [show core.step s = .refused r from h]; rfl

/-- A decoded frame is at least 8 bytes, all of them in the buffer. -/
theorem tryDecode_decoded_length {cfg : Config} {b f : List Byte} {n : Nat}
    (h : tryDecode cfg b = .decoded n f) : n = 8 + frameL b ∧ n ≤ b.length := by
  rcases tryDecode_cases cfg b with ⟨-, h'⟩ | ⟨-, -, h'⟩ | ⟨-, -, h'⟩ | ⟨-, hl, h'⟩
  · simp [h'] at h
  · simp [h'] at h
  · simp [h'] at h
  · rw [h', wholeFrame_decoded] at h
    exact ⟨h.1, by omega⟩

/-- A drain emits only DECODED and DISCARD events of its channel (42_session.md R124). -/
theorem DrainRuns.events {cfg : Config} {c : Byte} {b b' : List Byte} {es : List Event}
    (h : DrainRuns cfg c b es b') :
    ∀ e ∈ es, (∃ f, e = .decoded c f) ∨ ∃ r x, e = .discard c r x := by
  induction h with
  | empty => simp
  | need _ _ => simp
  | invalid _ _ ih => simpa using ih
  | decoded _ _ _ ih => simpa using ih

/-- What a drain leaves is the end of what it was given. -/
theorem DrainRuns.suffix {cfg : Config} {c : Byte} {b b' : List Byte} {es : List Event}
    (h : DrainRuns cfg c b es b') : b' <:+ b := by
  induction h with
  | empty => exact List.suffix_refl _
  | need _ _ => exact List.suffix_refl _
  | invalid _ _ ih => exact ih.trans (List.suffix_cons _ _)
  | decoded _ _ _ ih => exact ih.trans (List.drop_suffix _ _)

/-- Fitting latches hold no value outside the states 10_state.md R27 lists, but for the empty P.PAY
that the SEND header writes in SEND_ID (42_session.md R126; log entry 8). -/
theorem LatchesFit.validIn {q : Sequencer} {l : Latches} (h : LatchesFit q l) :
    l.validIn q = if q = .sendId then { l with pay := none } else l := by
  cases q with
  | idle => exact Eq.symm h
  | sendId => obtain ⟨ch, id, n, rfl⟩ := h; rfl
  | sendData => obtain ⟨ch, id, n, sy, co, pay, -, rfl⟩ := h; rfl
  | crcData => obtain ⟨e, r, a, -, rfl⟩ := h; rfl

/-- The payload latch never holds more than PAY_DEPTH bytes (10_state.md R27, 42_session.md R128). -/
theorem LatchesFit.pay_le {q : Sequencer} {l : Latches} {p : List Byte} (h : LatchesFit q l)
    (hp : l.pay = some p) : p.length ≤ payDepth := by
  cases q with
  | idle => rw [show l = Latches.empty from h] at hp; cases hp
  | sendId => obtain ⟨ch, id, n, rfl⟩ := h; cases hp; simp
  | sendData =>
    obtain ⟨ch, id, n, sy, co, pay, hlt, rfl⟩ := h
    cases hp
    have := n.isLt
    simp only [payDepth]
    omega
  | crcData => obtain ⟨e, r, a, -, rfl⟩ := h; cases hp

theorem sentSeqs_append (c : Byte) (es fs : List Event) :
    sentSeqs c (es ++ fs) = sentSeqs c es ++ sentSeqs c fs := by
  simp [sentSeqs, List.filterMap_append]

theorem seqsFrom_append (q : Byte) (m n : Nat) :
    seqsFrom q (m + n) = seqsFrom q m ++ seqsFrom (q + BitVec.ofNat 8 m) n := by
  induction m generalizing q with
  | zero => simp [seqsFrom]
  | succ m ih =>
    rw [Nat.add_right_comm]
    simp only [seqsFrom, ih, List.cons_append]
    congr 3
    simp only [BitVec.ofNat_add, BitVec.add_assoc]
    exact congrArg (q + ·) (BitVec.add_comm _ _)

end Sys2Proof.Machine
end

