-- ==== Sys2Proof/Tests/Slice0.lean ====
section
/-! SUPPORT. The model's own tests, expected values from 95_test_vectors.md, and a witness for the
hypotheses of each statement. -/

namespace Sys2Proof.Tests

open Sys2Proof Sys2Proof.Machine

/-! ### The test configuration and states (95_test_vectors.md section 1) -/

/-- `NCH = 4`, TREG and UNPACK_OK_T (92_eei_decisions.md D23). Test data, used nowhere else. -/
def testConfig : Config where
  topChannel := 3
  reg id :=
    if id = 0x00 then some ⟨9, 0x32⟩
    else if id = 0x01 then some ⟨0, 0xA5⟩
    else if id = 0x02 then some ⟨3, 0x07⟩
    else if id = 0xFE then some ⟨1, 0x00⟩
    else none
  unpackOk id p := !(id == 0x02 && peek p 0 == 0xFF)

/-- The state after reset with this sequencer state and these latches. -/
def at_ (q : Sequencer) (l : Latches) : State := { State.reset with sq := q, p := l }

/-- The latches of an open SEND on channel 0 with these fields. -/
def sendLatches (id n : Byte) (ids : Option Byte) (pay : List Byte) : Latches :=
  { Latches.empty with
    ch := some 0, msgid := some id, plen := some n, sysid := ids, compid := ids, pay := some pay }

/-- The latches of an open CRC with this count. -/
def crcLatches (r : Half) : Latches :=
  { Latches.empty with seed := some 0x00, rem := some r, acc := some 0xFFFF }

/-- One step on a command word, under the machine's own configuration. -/
def send1 (w : Word) (s : State) : State := { s with input := [.word w] }

def outOf : Answer → List Event
  | .next t => t.out
  | .fault _ => []
  | .refused _ => []

def sqOf : Answer → Option Sequencer
  | .next t => some t.sq
  | .fault _ => none
  | .refused _ => none

def bufOf (c : Byte) : Answer → Option (List Byte)
  | .next t => some (t.buf c)
  | .fault _ => none
  | .refused _ => none

def latchesOf : Answer → Option Latches
  | .next t => some t.p
  | .fault _ => none
  | .refused _ => none

/-- The 11-byte frame T. -/
def frameT : List Byte := [0xFE, 0x03, 0x00, 0x09, 0x09, 0x02, 0x01, 0x02, 0x03, 0x09, 0x1D]

/-- The 8-byte frame E. -/
def frameE : List Byte := [0xFE, 0x00, 0x00, 0x01, 0x01, 0x01, 0x68, 0xA5]

/-! ### Decoding (30_encoding.md R67 to R72; vectors V-S1, V-S6, V-F3, V-C9) -/

theorem test_decode_nop : decode 0x00000000 = .ok .nop := by decide
theorem test_decode_feed : decode 0x100400FE = .ok (.feed 4 0xFE) := by decide
theorem test_decode_send : decode 0x2001FE01 = .ok (.send 1 0xFE 1) := by decide
theorem test_decode_sendid : decode 0x3000FF00 = .ok (.sendid 0xFF 0) := by decide
theorem test_decode_data : decode 0x40000006 = .ok (.data 6) := by decide
theorem test_decode_crc : decode 0x5032000E = .ok (.crc 0x32 14) := by decide

/-- The illegal words of V-X2 to V-X8, each refused by its own name. -/
theorem test_decode_illegal :
    decode 0x60000000 = .error .reservedOp ∧ decode 0xF0000000 = .error .reservedOp ∧
    decode 0x11000000 = .error .reservedBits ∧ decode 0x10000100 = .error .mustBeZero ∧
    decode 0x00000001 = .error .nonzeroNop ∧ decode 0x30010000 = .error .mustBeZero ∧
    decode 0x40000100 = .error .mustBeZero := by decide

theorem test_decodeTableWord : decodeTableWord 32 0x5032000E = some (.crc 0x32 14) ∧
    decodeTableWord 32 0x60000000 = none := by decide

/-- The rows of opcode_table.json do not overlap: two patterns differ where both masks look. -/
theorem test_rows_disjoint :
    opcodeTable.Pairwise (fun r q => r.pattern &&& q.mask ≠ q.pattern &&& r.mask) := by decide

/-! ### Well-formed assembler lines (R76, R77) -/

theorem test_wellFormed : AsmLine.wellFormed (.feed 255 0xFE) = true ∧
    AsmLine.wellFormed (.crc 255 65535) = true ∧
    AsmLine.wellFormed (.sendmsg 0 0 255 0 [255]) = true := by decide

/-- One ill-formed line for each check. -/
theorem test_illFormed :
    [AsmLine.feed 256 0, .feed 0 256, .send 256 0 0, .send 0 256 0, .send 0 0 256, .sendid 256 0,
     .sendid 0 256, .data 256, .crc 256 0, .crc 0 65536, .feeds 256 [], .feeds 0 [1, 256],
     .sendmsg 256 0 0 0 [], .sendmsg 0 256 0 0 [], .sendmsg 0 0 256 0 [], .sendmsg 0 0 0 256 [],
     .sendmsg 0 0 0 0 [256], .crcof 256 [], .crcof 0 [256]].all (fun l => !l.wellFormed) = true := by decide

/-- Lists longer than their count fields can say. -/
theorem test_illFormed_length :
    AsmLine.wellFormed (.sendmsg 0 0 0 0 (List.replicate 256 0)) = false ∧
    AsmLine.wellFormed (.crcof 0 (List.replicate 65536 0)) = false := by
  simp only [AsmLine.wellFormed, List.length_replicate, show fitsByte 256 = false by decide,
    show fitsHalf 65536 = false by decide, Bool.and_false, and_self]

/-- From text to words: `SEND 0, 0x00, 9` and `CRC 0x00, 2` (V-A1, V-C15), a pseudo-command, and a
number that does not fit. -/
theorem test_assembler :
    (parseLine ['S', 'E', 'N', 'D', ' ', '0', ',', ' ', '0', 'x', '0', '0', ',', ' ', '9']).bind
      assembleWords = some [0x20000009] ∧
    (parseLine ['C', 'R', 'C', 'O', 'F', ' ', '0', ',', '[', '0', 'x', '4', '1', ']']).bind
      assembleWords = some [0x50000001, 0x40000041] ∧
    (parseLine ['D', 'A', 'T', 'A', ' ', '2', '5', '6']).bind assembleWords = none := by decide

/-! ### Functions -/

/-- V-C1 to V-C8. -/
theorem test_checksum :
    crcAcc 0x0000 0x80 = 0x8408 ∧ crcAcc 0x1234 0x56 = 0x4006 ∧ crcAcc 0xFFFF 0x09 = 0x9246 ∧
    crcAccSerial 0x1234 0x56 = 0x4006 ∧
    crcSeq 0xFFFF [0x31, 0x32, 0x33, 0x34, 0x35, 0x36, 0x37, 0x38, 0x39] = 0x6F91 ∧
    checksum [] 0xA5 = 0xFD20 ∧ checksum [1, 2] 0 = 0x505F ∧ checksum [2, 1] 0 = 0x9553 := by decide

/-- V-D2, V-D6 to V-D8, V-D13 to V-D16. -/
theorem test_tryDecode :
    tryDecode testConfig [0x00] = .invalid .notMarker ∧
    tryDecode testConfig [0xFE, 0, 0, 1, 1, 3, 0] = .need ∧
    tryDecode testConfig [0xFE, 0, 0, 1, 1, 3, 0, 0] = .invalid .unknownId ∧
    tryDecode testConfig [0xFE, 0, 0, 0, 0, 0, 0, 0] = .invalid .lenMismatch ∧
    tryDecode testConfig [0xFE, 0, 0, 1, 1, 1, 0x69, 0xA5] = .invalid .crcMismatch ∧
    tryDecode testConfig (frameT ++ [0]) = .decoded 11 frameT ∧
    tryDecode testConfig [0xFE, 3, 0, 9, 9, 2, 0xFF, 0, 0, 0xB0, 0x5B] = .invalid .unpackFail ∧
    tryDecode testConfig [0xFE, 1, 5, 1, 2, 0xFE, 0x42, 0x16, 0x23] =
      .decoded 9 [0xFE, 1, 5, 1, 2, 0xFE, 0x42, 0x16, 0x23] := by decide

/-- The frames M0 and E255 of section 1. -/
theorem test_encodeFrame :
    encodeFrame 0xFE 1 2 0 [0x42] 0x00 = [0xFE, 1, 0, 1, 2, 0xFE, 0x42, 0x91, 0x37] ∧
    encodeFrame 0x01 1 1 255 [] 0xA5 = [0xFE, 0, 255, 1, 1, 1, 0x32, 0x50] := by decide

/-- Event words of V-F1, V-F3, V-C9, V-S2 and V-A2. -/
theorem test_eventWords :
    eventWords (.discard 0 .notMarker 0x55) = [0x21000055] ∧
    eventWords (.error .channel 4 0x1000) = [0xE4041000] ∧
    eventWords (.crc 0xDFA1) = [0x4000DFA1] ∧
    eventWords (.sent 3 frameE) = [0x30030008, 0xB00000FE, 0xB0000000, 0xB0000000, 0xB0000001,
      0xB0000001, 0xB0000001, 0xB0000068, 0xB00000A5] ∧
    eventWords (.error .aborted 2 0x2200) = [0xE3022200] := by decide

/-! ### One step of each command -/

/-- V-S8: a NOP inside a SEND changes nothing. -/
theorem test_nop : sqOf (exec .nop (at_ .sendId (sendLatches 1 0 none []))) = some .sendId := by decide

/-- V-F8, the 8th word: the checksum fails and every byte is dropped. -/
theorem test_feed_resync :
    outOf (feedIn testConfig 0 0x5A (State.reset.setBuf 0 [0xFE, 0, 0, 1, 1, 1, 0x97])) =
      [.discard 0 .crcMismatch 0xFE, .discard 0 .notMarker 0, .discard 0 .notMarker 0,
       .discard 0 .notMarker 1, .discard 0 .notMarker 1, .discard 0 .notMarker 1,
       .discard 0 .notMarker 0x97, .discard 0 .notMarker 0x5A] := by decide

/-- V-F9, the last word: a frame is decoded and the buffer left empty. -/
theorem test_feed_decodes :
    outOf (feedIn testConfig 3 0x1D (State.reset.setBuf 3 (frameT.take 10))) = [.decoded 3 frameT] ∧
    bufOf 3 (feedIn testConfig 3 0x1D (State.reset.setBuf 3 (frameT.take 10))) = some [] := by decide

/-- V-S1: the header opens the command. -/
theorem test_send_header : latchesOf (exec (.send 0 0 9) State.reset) =
    some (sendLatches 0 9 none []) := by decide

/-- R27's table in SEND_ID: P.PAY holds no value there, P.PLEN does. -/
theorem test_latches_sendId : (at_ .sendId (sendLatches 0 9 none [])).latches =
    ⟨some 0, some 0, some 9, none, none, none, none, none, none⟩ := by decide

/-- V-A2: a second header aborts the first and opens nothing. -/
theorem test_send_aborts :
    outOf (exec (.send 0 1 0) (at_ .sendData (sendLatches 0 9 (some 1) []))) =
      [.error .aborted 0 0x2200] ∧
    sqOf (exec (.send 0 1 0) (at_ .sendData (sendLatches 0 9 (some 1) []))) = some .idle := by decide

/-- V-S2: PLEN = 0 completes at the SENDID. -/
theorem test_sendid_completes :
    outOf (sendidIn testConfig 1 1 (at_ .sendId (sendLatches 1 0 none []))) = [.sent 0 frameE] := by
  decide

/-- V-X10: a SENDID with no SEND open. -/
theorem test_sendid_stray : outOf (exec (.sendid 1 2) State.reset) = [.error .sequence 0 0x3000] := by
  decide

/-- V-S5: the wrong payload length is reported at the last DATA and sends nothing. -/
theorem test_data_length :
    outOf (dataIn testConfig 2 (at_ .sendData (sendLatches 2 2 (some 9) [1]))) =
      [.error .lenMismatch 0 0x0302] := by decide

/-- V-C12: the last DATA of a CRC emits its value. -/
theorem test_data_crc : outOf (exec (.data 0x41) (at_ .crcData (crcLatches 1))) = [.crc 0xAF06] := by
  decide

/-- V-C11: N = 0 completes at the header. -/
theorem test_crc_empty : outOf (exec (.crc 0x32 0) State.reset) = [.crc 0x1D16] := by decide

/-- V-C12: the header alone. -/
theorem test_crc_header : latchesOf (exec (.crc 0x00 1) State.reset) = some (crcLatches 1) := by decide

/-- V-X2 and V-A4: an illegal word in IDLE and inside a SEND. -/
theorem test_illegal :
    outOf (step (send1 0x60000000 State.reset)) = [.error .illegal 0 0x6000] ∧
    outOf (step (send1 0x60000000 (at_ .sendId (sendLatches 0 9 none [])))) =
      [.error .aborted 0 0x6200] := by decide

/-- A word placed for the fetch is the one the next step runs (V-X9). -/
theorem test_withFetchWord :
    outOf (step (State.reset.withFetchWord 32 0x40000005)) = [.error .sequence 0 0x4000] := by decide

/-! ### Witnesses: for each statement, a state and operands that meet its hypotheses -/

/-- A buffer of `n` zero bytes. -/
theorem zeros_length (n : Nat) : (List.replicate n (0 : Byte)).length = n := List.length_replicate

/-- The FCB has at least one channel. -/
theorem chan0 : (0 : Byte).toNat < Config.chip.nch := Nat.succ_pos _

/-- The machine's registry holds the pinned entry. -/
theorem chip_reg0 : Config.chip.reg 0x00 = some Config.heartbeat := rfl

theorem witness_EncodeOfDecode : decode 0x5032000E = .ok (.crc 0x32 14) := by decide

theorem witness_EventStreamDetermined :
    (∀ e ∈ [Event.crc 1, .sent 0 frameE], e.fits) ∧ (∀ e ∈ [Event.crc 1, .sent 0 frameE], e.fits) ∧
      streamWords [.crc 1, .sent 0 frameE] = streamWords [.crc 1, .sent 0 frameE] := by
  simp [Event.fits, frameE]

/-- One input per clause, at the edge of its range. -/
theorem witness_TryDecodeChecksInOrder :
    ((0xFD : Byte) ≠ 0xFE) ∧ (List.replicate 4 (0 : Byte)).length < 5 ∧
    (List.replicate 256 (0 : Byte)).length < (0xFF : Byte).toNat + 2 ∧
    (List.replicate 255 (0 : Byte)).length = (0xFF : Byte).toNat ∧
    ([] : List Byte).length = (0x00 : Byte).toNat := by
  simp only [List.length_replicate]
  decide

theorem witness_TryDecodeAcceptsValidFrames :
    tryDecode testConfig frameT = .decoded 11 frameT ∧ testConfig.reg 2 = some ⟨3, 7⟩ ∧
    (3 : Byte).toNat = [1, 2, (3 : Byte)].length ∧ testConfig.unpackOk 2 [1, 2, 3] = true := by decide

theorem witness_TryDecodeReadWindow : peek [0x55] 0 ≠ 0xFE := by decide

theorem witness_PrefixStability :
    tryDecode testConfig frameT ≠ .need ∧ tryDecode testConfig [0xFE] = .need ∧ [0xFE] ≠ [] := by
  decide

theorem witness_EncodedFrameLayout : (List.replicate 255 (0 : Byte)).length ≤ 255 ∧
    ([] : List Byte).length ≤ 255 := ⟨(zeros_length 255).le, Nat.zero_le _⟩

theorem witness_DecodeOfEncodedFrame : testConfig.reg 2 = some ⟨3, 7⟩ ∧
    [1, 2, (3 : Byte)].length = (3 : Byte).toNat ∧ testConfig.unpackOk 2 [1, 2, 3] = true := by decide

theorem witness_DrainRunsToQuiescence :
    DrainRuns testConfig 0 [0xFE] [] [0xFE] := .need (by simp) (by decide)

/-- The largest quiescent buffer (V-D17), and the empty one. -/
theorem witness_QuiescentBufferShape :
    Quiescent testConfig (0xFE :: 0xFF :: List.replicate 260 0) ∧ Quiescent testConfig [] :=
  ⟨.inr (tryDecode_short rfl (.inr (by
    rw [List.length_cons, List.length_cons, zeros_length]; decide))), .inl rfl⟩

theorem witness_StepRunsDecodedCommand : (send1 0x100000FE State.reset).input = [.word 0x100000FE] ∧
    (send1 0x100000FE State.reset).fault = none ∧ decode 0x100000FE = .ok (.feed 0 0xFE) := by decide

theorem witness_StepWaitsForInput : State.reset.input = [] ∧ State.reset.fault = none := by decide

theorem witness_FaultedMachineTakesNoStep :
    (State.reset.setFault (.bufFull 2)).fault = some (.bufFull 2) ∧
    (∀ rest, (State.reset.setFault (.bufFull 2)).input ≠ .reset :: rest) ∧
    ∃ t, step ((State.reset.setFault (.bufFull 2)).setInput [.reset]) = .next t :=
  ⟨rfl, (fun _ h => by cases h), _, rfl⟩

theorem witness_ResetInputResets :
    ((at_ .sendId (sendLatches 0 9 none [])).setInput [.reset]).input = [.reset] := rfl

theorem witness_IllegalWordInIdle : (send1 0x60000000 State.reset).input = [.word 0x60000000] ∧
    decode 0x60000000 = .error .reservedOp ∧ (send1 0x60000000 State.reset).sq = .idle := by decide

theorem witness_StrayWordInIdle : State.reset.sq = .idle := rfl

/-- A FEED word inside an open CRC, inside SEND_ID and inside SEND_DATA. -/
theorem witness_UnexpectedWordAborts :
    (¬ Expected .crcData 0x100000FE ∧ ¬ Expected .sendId 0x100000FE ∧
      ¬ Expected .sendData 0x100000FE) ∧ (0x100000FE : Word) ≠ 0 ∧
    (send1 0x100000FE (at_ .crcData (crcLatches 1))).sq = .crcData ∧
    (send1 0x100000FE (at_ .sendId (sendLatches 0 9 none []))).p.ch = some 0 ∧
    (send1 0x100000FE (at_ .sendData (sendLatches 0 9 (some 1) []))).p.ch = some 0 := by
  have h : decode 0x100000FE = .ok (.feed 0 0xFE) := by decide
  refine ⟨⟨?_, ?_, ?_⟩, by decide, rfl, rfl, rfl⟩
  · rintro ⟨x, e⟩; rw [h] at e; cases e
  · rintro ⟨x, y, e⟩; rw [h] at e; cases e
  · rintro ⟨x, e⟩; rw [h] at e; cases e

/-- An empty buffer, and one with room for one byte. -/
theorem witness_FeedPushesAndDrains : State.reset.sq = .idle ∧ (0 : Byte).toNat < Config.chip.nch ∧
    (State.reset.buf 0).length < 263 ∧
    ((State.reset.setBuf 0 (List.replicate 262 0)).buf 0).length < 263 :=
  ⟨rfl, chan0, by decide, by rw [State.setBuf_buf_same, zeros_length]; decide⟩

theorem witness_FeedRefusesBadChannel : State.reset.sq = .idle ∧ testConfig.nch ≤ (4 : Byte).toNat ∧
    testConfig.nch ≤ (255 : Byte).toNat := by decide

theorem witness_FeedOntoFullBufferFaults :
    (State.reset.setBuf 0 (List.replicate 263 0)).sq = .idle ∧ (0 : Byte).toNat < Config.chip.nch ∧
    ((State.reset.setBuf 0 (List.replicate 263 0)).buf 0).length = 263 :=
  ⟨rfl, chan0, by rw [State.setBuf_buf_same, zeros_length]⟩

theorem witness_SendHeaderOpens : State.reset.sq = .idle := rfl

theorem witness_SendidLatchesIds : (at_ .sendId (sendLatches 0 9 none [])).p.plen = some 9 ∧
    (9 : Byte) ≠ 0 ∧ (at_ .sendId (sendLatches 0 255 none [])).p.plen = some 255 := by decide

theorem witness_SendidCompletesEmptySend :
    (at_ .sendId (sendLatches 1 0 none [])).sq = .sendId ∧
    (at_ .sendId (sendLatches 1 0 none [])).p.plen = some 0 ∧
    (at_ .sendId (sendLatches 1 0 none [])).p.ch = some 0 ∧
    (at_ .sendId (sendLatches 1 0 none [])).p.msgid = some 1 ∧
    (at_ .sendId (sendLatches 1 0 none [])).p.pay = some [] := by decide

theorem witness_DataAppendsPayload :
    (at_ .sendData (sendLatches 2 3 (some 9) [1])).sq = .sendData ∧
    (at_ .sendData (sendLatches 2 3 (some 9) [1])).p.pay = some [1] ∧
    [(1 : Byte)].length + 1 ≠ (3 : Byte).toNat := by decide

theorem witness_DataCompletesSend :
    (at_ .sendData (sendLatches 2 3 (some 9) [1, 2])).p.pay = some [1, 2] ∧
    [(1 : Byte), 2].length + 1 = (3 : Byte).toNat ∧
    (at_ .sendData (sendLatches 2 3 (some 9) [1, 2])).p.sysid = some 9 ∧
    (at_ .sendData (sendLatches 2 3 (some 9) [1, 2])).p.compid = some 9 := by decide

/-- The clauses of `SendEnds`: a bad channel, an unknown id, a wrong length and a frame (V-S3 to
V-S6). -/
theorem witness_SendEnds : testConfig.nch ≤ (4 : Byte).toNat ∧
    (3 : Byte).toNat < testConfig.nch ∧ testConfig.reg 0x03 = none ∧
    testConfig.reg 0x02 = some ⟨3, 7⟩ ∧ (3 : Byte).toNat ≠ [(1 : Byte), 2].length ∧
    testConfig.reg 0xFE = some ⟨1, 0⟩ ∧ (1 : Byte).toNat = [(0x42 : Byte)].length := by decide

/-- The last byte of the heartbeat of W1, on channel 0. -/
theorem witness_DataSendsFrame :
    (at_ .sendData (sendLatches 0 9 (some 1) [0, 0, 0, 0, 6, 8, 0, 0])).p.pay =
      some [0, 0, 0, 0, 6, 8, 0, 0] ∧
    [(0 : Byte), 0, 0, 0, 6, 8, 0, 0].length + 1 = (9 : Byte).toNat ∧
    (0 : Byte).toNat < Config.chip.nch ∧ Config.chip.reg 0 = some Config.heartbeat ∧
    Config.heartbeat.len = 9 := ⟨rfl, by decide, chan0, rfl, rfl⟩

theorem witness_CrcHeaderOpensOrCompletes : State.reset.sq = .idle ∧ (65535 : Half) ≠ 0 ∧
    (0 : Half) = 0 := by decide

theorem witness_DataFoldsChecksum : (at_ .crcData (crcLatches 2)).sq = .crcData ∧
    (at_ .crcData (crcLatches 2)).p.rem = some 2 ∧ 1 < (2 : Half).toNat ∧
    (at_ .crcData (crcLatches 1)).p.rem = some 1 ∧
    (at_ .crcData (crcLatches 1)).p.acc = some 0xFFFF ∧
    (at_ .crcData (crcLatches 1)).p.seed = some 0 := by decide

/-- FEED answers a next state in IDLE and inside a SEND. -/
theorem witness_FeedFrame : (∃ t, exec (.feed 0 0x55) State.reset = .next t) ∧
    ∃ t, exec (.feed 0 0x55) (at_ .sendId (sendLatches 0 9 none [])) = .next t := ⟨⟨_, rfl⟩, _, rfl⟩

theorem witness_HeaderFrame : (∃ t, exec .nop State.reset = .next t) ∧
    (∃ t, exec (.send 0 0 9) State.reset = .next t) ∧
    ∃ t, exec (.crc 0 2) (at_ .crcData (crcLatches 1)) = .next t := ⟨⟨_, rfl⟩, ⟨_, rfl⟩, _, rfl⟩

theorem witness_SendWordFrame :
    (∃ t, exec (.sendid 1 1) (at_ .sendId (sendLatches 0 9 none [])) = .next t) ∧
    ∃ t, exec (.data 1) (at_ .crcData (crcLatches 1)) = .next t := ⟨⟨_, rfl⟩, _, rfl⟩

/-- A state with a command open that meets the invariants, and a step from it. -/
theorem witness_StepKeepsSafe : Safe (send1 0x00000000 (at_ .crcData (crcLatches 1))) ∧
    ∃ t, step (send1 0x00000000 (at_ .crcData (crcLatches 1))) = .next t :=
  ⟨⟨fun c => .inl (congrArg Channel.buf (reset_chan c)),
    ⟨0, 1, 0xFFFF, by decide, rfl⟩, rfl, fun c _ => reset_chan c⟩, _, rfl⟩

theorem witness_SafeStepsNeverStop : Safe (send1 0x00000000 (at_ .crcData (crcLatches 1))) :=
  witness_StepKeepsSafe.1

theorem witness_NoChannelResyncsBetweenSteps :
    Safe (send1 0x00000000 (at_ .crcData (crcLatches 1))) := witness_StepKeepsSafe.1

theorem witness_StepEmitsLegalEvents :
    LatchesFit (State.reset.emits [.crc 5]).sq (State.reset.emits [.crc 5]).p ∧
    (∀ e ∈ (State.reset.emits [.crc 5]).out, EventLegal Config.chip e) ∧
    ∃ t, step (State.reset.emits [.crc 5]) = .next t :=
  ⟨rfl, by simp [EventLegal, State.reset], _, rfl⟩

theorem witness_OutputOnlyGrows : ∃ t, step (send1 0x60000000 State.reset) = .next t := ⟨_, rfl⟩

/-- A marker fed to an empty channel 0 stays in its buffer (V-F2). -/
theorem witness_OnlyFeedChangesBuffer : ∃ t, step (send1 0x100000FE State.reset) = .next t ∧
    t.buf 0 ≠ (send1 0x100000FE State.reset).buf 0 := by
  refine ⟨_, rfl, ?_⟩
  have h : ∀ s : State, s.buf 0 = [] → (feed Config.chip 0 0xFE s).buf 0 = [0xFE] := by
    intro s hs
    have hd : (drain Config.chip 0 [0xFE]).2 = [0xFE] :=
      congrArg Prod.snd (drainLoop_need (n := 0) (tryDecode_short rfl (.inl (by decide))))
    rcases feed_cases Config.chip 0 0xFE s with ⟨h, -⟩ | ⟨-, h, -⟩ | ⟨-, -, h⟩
    · exact absurd chan0 (by omega)
    · rw [hs] at h; cases h
    · rw [h, drainInto_buf_same, hs]; exact hd
  have he : ∀ s : State, s.buf 0 = [] → (feed Config.chip 0 0xFE s).buf 0 ≠ [] := by
    intro s hs; rw [h s hs]; simp
  exact he ((send1 0x100000FE State.reset).setInput []) (congrArg Channel.buf (reset_chan 0))

/-- The heartbeat of W1 advances the counter of channel 0. -/
theorem witness_OnlySentFrameAdvancesCounter :
    ∃ t, step (send1 0x40000003
      (at_ .sendData (sendLatches 0 9 (some 1) [0, 0, 0, 0, 6, 8, 0, 0]))) = .next t ∧
    t.txseq 0 ≠ State.reset.txseq 0 := by
  refine ⟨_, rfl, ?_⟩
  have h : ∀ s : State, (sendResult Config.chip 0 0 1 1 [0, 0, 0, 0, 6, 8, 0, 0, 3] s).txseq 0 =
      s.txseq 0 + 1 := by
    intro s
    rcases sendResult_cases Config.chip 0 0 1 1 [0, 0, 0, 0, 6, 8, 0, 0, 3] s with
      ⟨h, -⟩ | ⟨-, h, -⟩ | ⟨e, -, h, hl, -⟩ | ⟨e, -, -, -, h⟩
    · exact absurd chan0 (by omega)
    · rw [chip_reg0] at h; cases h
    · rw [chip_reg0] at h; cases h; exact absurd rfl hl
    · rw [h]; simp
  have hr : State.reset.txseq 0 = 0 := congrArg Channel.txseq (reset_chan 0)
  rw [hr]
  have := h ((send1 0x40000003
    (at_ .sendData (sendLatches 0 9 (some 1) [0, 0, 0, 0, 6, 8, 0, 0]))).setInput [])
  exact fun e => absurd (this.symm.trans e) (by
    rw [show ((send1 0x40000003 (at_ .sendData (sendLatches 0 9 (some 1)
      [0, 0, 0, 0, 6, 8, 0, 0]))).setInput []).txseq 0 = 0 from hr]
    decide)

theorem witness_ErrorsLeaveChannels :
    ∃ t, step (send1 0x60000000 State.reset) = .next t ∧ (Event.error .illegal 0 0x6000).isError :=
  ⟨_, rfl, rfl⟩

theorem witness_FeedSeesOnlyItsBuffer : State.reset.sq = .idle ∧
    State.reset.buf 0 = (State.reset.setTxseq 0 7).buf 0 ∧
    (∃ t, execIn testConfig (.feed 0 0xFE) State.reset = .next t) ∧
    ∃ t, execIn testConfig (.feed 0 0xFE) (State.reset.setTxseq 0 7) = .next t :=
  ⟨rfl, by simp, ⟨_, rfl⟩, _, rfl⟩

/-- Chunks and fillers: a quiescent channel of the test configuration, empty or half way. -/
theorem witness_ChunkEquivalence : State.reset.sq = .idle ∧ (3 : Byte).toNat < testConfig.nch ∧
    Quiescent testConfig ((State.reset.setBuf 3 [0xFE, 0xFF]).buf 3) ∧ (0x00 : Byte) ≠ 0xFE := by
  rw [State.setBuf_buf_same]
  decide

/-- A half-read header, and filler bytes that are not all the same. -/
theorem witness_FillerEmptiesBuffer : (State.reset.setBuf 3 [0xFE, 0xFF]).sq = .idle ∧
    (3 : Byte).toNat < testConfig.nch ∧
    Quiescent testConfig ((State.reset.setBuf 3 [0xFE, 0xFF]).buf 3) ∧
    (0x00 :: List.replicate 262 0xFF : List Byte).length = 263 ∧
    ∀ x ∈ (0x00 :: List.replicate 262 0xFF : List Byte), x ≠ 0xFE := by
  refine ⟨rfl, by decide, witness_ChunkEquivalence.2.2.1,
    by rw [List.length_cons, List.length_replicate], fun x h => ?_⟩
  rcases List.mem_cons.1 h with rfl | h
  · decide
  · rw [List.eq_of_mem_replicate h]; decide

theorem witness_SendmsgEndsOnce : State.reset.sq = .idle ∧
    (List.replicate 255 (0 : Byte)).length ≤ 255 :=
  ⟨rfl, (zeros_length 255).le⟩

theorem witness_CrcofEmitsChecksum : State.reset.sq = .idle ∧
    (List.replicate 65535 (0 : Byte)).length ≤ 65535 := ⟨rfl, (zeros_length 65535).le⟩

/-- The frame E, sent by the SENDID of V-S2, fed to channel 3. -/
theorem witness_SentFrameLoopsBack :
    outOf (execIn testConfig (.sendid 1 1) (at_ .sendId (sendLatches 1 0 none []))) =
      (at_ .sendId (sendLatches 1 0 none [])).out ++ [.sent 0 frameE] ∧
    testConfig.unpackOk (peek frameE 5) (slice frameE 6 (5 + frameL frameE)) = true ∧
    State.reset.sq = .idle ∧ (3 : Byte).toNat < testConfig.nch ∧ State.reset.buf 3 = [] := by decide

theorem witness_SentFramesNumbered : ∃ t, steps 1 (send1 0x60000000 State.reset) = .next t ∧
    ∀ x ∈ (send1 0x60000000 State.reset).input, x ≠ .reset := ⟨_, rfl, by simp [send1]⟩

end Sys2Proof.Tests
end

