-- ==== Sys2Proof/Proofs/Scope.lean ====
section
/-! SUPPORT. Dispatch of a waiting word (42_session.md R120). -/

namespace Sys2Proof.Machine

/-- With FAULT clear, a legal word at the head of the port is fetched as its command. -/
theorem fetch_of_legal_word {s : State} {w : Word} {rest : List PortInput} {i : Instr}
    (hin : s.input = .word w :: rest) (hfault : s.fault = none) (hdec : decode w = .ok i) :
    fetch s = .command i (s.setInput rest) := by
  simp only [fetch, hin, hfault, hdec]

/-- A step that fetches a command executes it on the state the fetch left. -/
theorem step_of_fetch_command {s t : State} {i : Instr} (h : fetch s = .command i t) :
    step s = exec i t := by
  simp only [step, h]

/-- Settles O21: the fetch takes the legal word, and the step executes what was fetched. -/
theorem stepRunsDecodedCommand : Obligations.StepRunsDecodedCommand := by
  intro s w rest i hin hfault hdec
  exact step_of_fetch_command (fetch_of_legal_word hin hfault hdec)

end Sys2Proof.Machine
end

