-- ==== Sys2Proof/Proofs/State.lean ====
section
/-! SUPPORT. The architectural state (10_state.md): what a drain leaves, what a step can do to the
channel file and to OUT, and the invariants every step keeps. -/

namespace Sys2Proof.Machine

/-! ### Decode attempts -/

/-- The checks of a whole frame come after the marker check (41_frame_codec.md R101). -/
theorem wholeFrame_ne_notMarker (cfg : Config) (b : List Byte) :
    wholeFrame cfg b ≠ .invalid .notMarker := by
  unfold wholeFrame
  split
  · simp
  · split_ifs <;> simp

/-- The reason "no marker" is given exactly for a head that is none. -/
theorem tryDecode_invalid {cfg : Config} {x : Byte} {b : List Byte} {r : DiscardReason}
    (h : tryDecode cfg (x :: b) = .invalid r) : r = .notMarker ↔ x ≠ 0xFE := by
  rcases tryDecode_cases cfg (x :: b) with ⟨h0, -⟩ | ⟨-, hm, h'⟩ | ⟨-, -, h'⟩ | ⟨hm, -, h'⟩
  · cases h0
  · rw [h'] at h
    cases h
    exact ⟨fun _ => hm, fun _ => rfl⟩
  · rw [h'] at h
    cases h
  · have hx : x = 0xFE := hm
    rw [h'] at h
    have hr : r ≠ .notMarker := fun hr => wholeFrame_ne_notMarker cfg _ (hr ▸ h)
    simp [hr, hx]

/-- What a decode attempt accepts is a valid frame: the checks read only the frame itself
(30_encoding.md R65). -/
theorem tryDecode_decoded_valid {cfg : Config} {b f : List Byte} {n : Nat}
    (h : tryDecode cfg b = .decoded n f) : ValidFrame cfg f := by
  rcases tryDecode_cases cfg b with ⟨-, h'⟩ | ⟨-, -, h'⟩ | ⟨-, -, h'⟩ | ⟨hm, hl, h'⟩
  · simp [h'] at h
  · simp [h'] at h
  · simp [h'] at h
  · rw [h', wholeFrame_decoded] at h
    obtain ⟨-, hf, e, hreg, hlen, hcrc, hunpack⟩ := h
    have hfl : f.length = 8 + frameL b := by rw [hf, List.length_take, min_eq_left hl]
    have hb : b = f ++ b.drop (8 + frameL b) := by rw [hf, List.take_append_drop]
    generalize b.drop (8 + frameL b) = rest at hb
    subst hb
    rw [frameL_append_left rest (by omega)] at hfl
    rw [peek_append_left rest (by omega)] at hm hreg hlen
    rw [crcFrame_append_left rest e.seed hfl.ge, rxCrc_append_left rest hfl.ge] at hcrc
    rw [peek_append_left rest (by omega), frameL_append_left rest (by omega),
      slice_append_left rest (by omega)] at hunpack
    exact ⟨hm, hfl, e, hreg, hlen, hcrc, hunpack⟩

/-- A quiescent buffer that is not empty starts with the marker and is short of a header or of the
frame it claims (10_state.md R25). -/
theorem Quiescent.short {cfg : Config} {b : List Byte} (h : Quiescent cfg b) (hb : b ≠ []) :
    peek b 0 = marker ∧ (b.length < 6 ∨ b.length < 8 + frameL b) := by
  have hneed : tryDecode cfg b = .need := h.resolve_left hb
  rcases tryDecode_cases cfg b with ⟨h0, -⟩ | ⟨-, -, h'⟩ | ⟨hm, hs, -⟩ | ⟨-, -, h'⟩
  · exact absurd h0 hb
  · simp [h'] at hneed
  · exact ⟨hm, hs⟩
  · exact absurd (h' ▸ hneed) (wholeFrame_ne_need cfg b)

/-- A quiescent buffer has room for a byte (10_state.md R25, R28). -/
theorem Quiescent.length_le {cfg : Config} {b : List Byte} (h : Quiescent cfg b) :
    b.length ≤ 262 := by
  by_cases hb : b = []
  · simp [hb]
  · obtain ⟨-, hs⟩ := h.short hb
    have := frameL_lt b
    omega

/-- Settles O20: a buffer of 6 bytes or more that is short is short of the frame it claims. -/
theorem quiescentBufferShape : Obligations.QuiescentBufferShape := by
  intro cfg b h
  refine ⟨?_, h.length_le, fun hb => (h.short (List.ne_nil_of_length_pos hb)).1⟩
  by_cases h6 : b.length < 6
  · exact .inl h6
  · obtain ⟨hm, hs⟩ := h.short (by rintro rfl; simp at h6)
    exact .inr ⟨hm, by omega, hs.resolve_left h6⟩

/-! ### The drain -/

/-- With as much fuel as there are bytes, the drain loop is a run of the loop of 42_session.md R124. -/
theorem drainLoop_runs (cfg : Config) (c : Byte) {n : Nat} {b : List Byte} (h : b.length ≤ n) :
    DrainRuns cfg c b (drainLoop cfg c n b).1 (drainLoop cfg c n b).2 := by
  induction n generalizing b with
  | zero =>
    rw [List.length_eq_zero_iff.1 (Nat.le_zero.1 h)]
    exact .empty
  | succ n ih =>
    cases b with
    | nil => exact .empty
    | cons x b =>
      have hb : b.length ≤ n := Nat.le_of_succ_le_succ h
      cases hd : tryDecode cfg (x :: b) with
      | need =>
        rw [drainLoop_need hd]
        exact .need (List.cons_ne_nil x b) hd
      | invalid r =>
        rw [drainLoop_invalid hd]
        exact .invalid hd (ih hb)
      | decoded k f =>
        obtain ⟨hk, -⟩ := tryDecode_decoded_length hd
        rw [drainLoop_decoded hd]
        refine .decoded (List.cons_ne_nil x b) hd (ih ?_)
        rw [List.length_drop, List.length_cons]
        omega

theorem drain_runs (cfg : Config) (c : Byte) (b : List Byte) :
    DrainRuns cfg c b (drain cfg c b).1 (drain cfg c b).2 := drainLoop_runs cfg c le_rfl

/-- The loop returns on an empty buffer or on one that needs more bytes (42_session.md R124). -/
theorem DrainRuns.quiescent {cfg : Config} {c : Byte} {b b' : List Byte} {es : List Event}
    (h : DrainRuns cfg c b es b') : Quiescent cfg b' := by
  induction h with
  | empty => exact .inl rfl
  | need _ hd => exact .inr hd
  | invalid _ _ ih => exact ih
  | decoded _ _ _ ih => exact ih

/-- On a channel of the FCB the loop emits legal events only (60_exceptions.md R152). -/
theorem DrainRuns.eventLegal {cfg : Config} {c : Byte} {b b' : List Byte} {es : List Event}
    (hc : c.toNat < cfg.nch) (h : DrainRuns cfg c b es b') : ∀ e ∈ es, EventLegal cfg e := by
  induction h with
  | empty => simp
  | need _ _ => simp
  | invalid hd _ ih => exact List.forall_mem_cons.2 ⟨⟨hc, tryDecode_invalid hd⟩, ih⟩
  | decoded _ hd _ ih => exact List.forall_mem_cons.2 ⟨⟨hc, tryDecode_decoded_valid hd⟩, ih⟩

/-! ### FEED -/

@[simp] theorem feed_sq (cfg : Config) (c x : Byte) (s : State) : (feed cfg c x s).sq = s.sq := by
  rcases feed_cases cfg c x s with ⟨-, h⟩ | ⟨-, -, h⟩ | ⟨-, -, h⟩ <;> simp [h]

@[simp] theorem feed_p (cfg : Config) (c x : Byte) (s : State) : (feed cfg c x s).p = s.p := by
  rcases feed_cases cfg c x s with ⟨-, h⟩ | ⟨-, -, h⟩ | ⟨-, -, h⟩ <;> simp [h]

@[simp] theorem feed_txseq (cfg : Config) (c x : Byte) (s : State) (d : Byte) :
    (feed cfg c x s).txseq d = s.txseq d := by
  rcases feed_cases cfg c x s with ⟨-, h⟩ | ⟨-, -, h⟩ | ⟨-, -, h⟩ <;> simp [h]

/-- A FEED touches no channel but its own (10_state.md R21). -/
theorem feed_chan_ne (cfg : Config) {c d : Byte} (x : Byte) (s : State) (hd : d ≠ c) :
    (feed cfg c x s).chan d = s.chan d := by
  rcases feed_cases cfg c x s with ⟨-, h⟩ | ⟨-, -, h⟩ | ⟨-, -, h⟩
  · simp [h]
  · simp [h]
  · rw [h, drainInto_chan_ne cfg _ s hd]

/-- A FEED emits its channel error, nothing, or what the drain emits: legal events (R123). -/
theorem feed_out (cfg : Config) (c x : Byte) (s : State) :
    ∃ es, (feed cfg c x s).out = s.out ++ es ∧ ∀ e ∈ es, EventLegal cfg e := by
  rcases feed_cases cfg c x s with ⟨hc, h⟩ | ⟨-, -, h⟩ | ⟨hc, -, h⟩
  · exact ⟨_, by rw [h, State.emits_out], by simp [EventLegal, hc]⟩
  · exact ⟨[], by simp [h], by simp⟩
  · exact ⟨_, by rw [h, drainInto_out], (drain_runs cfg c _).eventLegal hc⟩

/-- A FEED on a quiescent channel of the FCB finds room, pushes and drains (R25, R123). -/
theorem feed_quiescent {cfg : Config} {c : Byte} (x : Byte) {s : State} (hc : c.toNat < cfg.nch)
    (hq : Quiescent cfg (s.buf c)) :
    feed cfg c x s = drainInto cfg c (s.buf c ++ [x]) s := by
  have hl := hq.length_le
  rcases feed_cases cfg c x s with ⟨h, -⟩ | ⟨-, h, -⟩ | ⟨-, -, h⟩
  · omega
  · omega
  · exact h

/-- A FEED in IDLE on a quiescent channel of the FCB pushes and drains, and never meets a full buffer
(R25, R123). -/
theorem execIn_feed_quiescent {cfg : Config} {c : Byte} (x : Byte) {s : State} (hsq : s.sq = .idle)
    (hc : c.toNat < cfg.nch) (hq : Quiescent cfg (s.buf c)) :
    execIn cfg (.feed c x) s = .next (drainInto cfg c (s.buf c ++ [x]) s) := by
  rw [← feed_quiescent x hc hq]
  exact whenIdle_idle hsq

/-- FEEDS on a quiescent channel runs to its end, and leaves the channel quiescent with an end of the
bytes it held and was fed. -/
theorem execAllIn_feeds {cfg : Config} {c : Byte} (bs : List Byte) {s : State} (hsq : s.sq = .idle)
    (hc : c.toNat < cfg.nch) (hq : Quiescent cfg (s.buf c)) :
    ∃ t, execAllIn cfg (feeds c bs) s = .next t ∧ Quiescent cfg (t.buf c) ∧
      t.buf c <:+ s.buf c ++ bs := by
  induction bs generalizing s with
  | nil => exact ⟨s, rfl, hq, by simp⟩
  | cons x bs ih =>
    have hdrain := drain_runs cfg c (s.buf c ++ [x])
    obtain ⟨t, ht, htq, hsuf⟩ := ih (s := drainInto cfg c (s.buf c ++ [x]) s) hsq
      (by simpa using hdrain.quiescent)
    refine ⟨t, ?_, htq, hsuf.trans ?_⟩
    · simpa only [feeds, List.map_cons, execAllIn, execIn_feed_quiescent x hsq hc hq] using ht
    · obtain ⟨dropped, hdropped⟩ := hdrain.suffix
      exact ⟨dropped, by rw [drainInto_buf_same, ← List.append_assoc, hdropped, ← List.append_cons]⟩

/-- Settles O60: the buffer ends as at most 262 of the last bytes fed, so none of them is the marker,
which heads every quiescent buffer that is not empty. -/
theorem fillerEmptiesBuffer : Obligations.FillerEmptiesBuffer := by
  intro cfg s c bs hsq hc hq hlen hfill
  obtain ⟨t, ht, htq, hsuf⟩ := execAllIn_feeds bs hsq hc hq
  have hend : t.buf c <:+ bs := by
    refine List.suffix_of_suffix_length_le hsuf (List.suffix_append _ _) ?_
    have := htq.length_le
    omega
  refine ⟨t, ht, ?_⟩
  cases hb : t.buf c with
  | nil => rfl
  | cons y ys =>
    have hy : y = 0xFE := by simpa [hb, peek, marker] using (htq.short (by simp [hb])).1
    exact absurd hy (hfill y (hend.subset (by simp [hb])))

/-! ### The encoded frame -/

/-- The bytes before an encoded frame's checksum (41_frame_codec.md R106). -/
def frameBody (id sy co seq : Byte) (p : List Byte) : List Byte :=
  marker :: BitVec.ofNat 8 p.length :: seq :: sy :: co :: id :: p

/-- The checksum an encoded frame carries (R106). -/
def frameChecksum (id sy co seq : Byte) (p : List Byte) (seed : Byte) : Half :=
  checksum (slice (frameBody id sy co seq p) 1 (5 + p.length)) seed

section
variable (id sy co seq : Byte) (p : List Byte) (seed : Byte)

theorem encodeFrame_eq : encodeFrame id sy co seq p seed = frameBody id sy co seq p ++
    [lowByte (frameChecksum id sy co seq p seed), highByte (frameChecksum id sy co seq p seed)] := rfl

@[simp] theorem frameBody_length : (frameBody id sy co seq p).length = 6 + p.length := by
  simp [frameBody]; omega

@[simp] theorem encodeFrame_length : (encodeFrame id sy co seq p seed).length = 8 + p.length := by
  simp [encodeFrame_eq]; omega

@[simp] theorem peek_encodeFrame_marker : peek (encodeFrame id sy co seq p seed) 0 = 0xFE := rfl

@[simp] theorem peek_encodeFrame_len :
    peek (encodeFrame id sy co seq p seed) 1 = BitVec.ofNat 8 p.length := rfl

@[simp] theorem peek_encodeFrame_seq : peek (encodeFrame id sy co seq p seed) 2 = seq := rfl

@[simp] theorem peek_encodeFrame_msgid : peek (encodeFrame id sy co seq p seed) 5 = id := rfl

variable {p}

theorem frameL_encodeFrame (hp : p.length ≤ 255) :
    frameL (encodeFrame id sy co seq p seed) = p.length := by
  rw [frameL, peek_encodeFrame_len, BitVec.toNat_ofNat]
  omega

/-- A 16-bit value put together from its own two bytes (20_memory.md R43). -/
theorem halfOfBytes_low_high (v : Half) : halfOfBytes (lowByte v) (highByte v) = v := by
  apply BitVec.eq_of_getElem_eq
  intro i hi
  interval_cases i <;> simp [halfOfBytes, byteToHalf, lowByte, highByte]

/-- The checksum an encoded frame carries is the one over its own bytes (30_encoding.md R64, R65). -/
theorem crcFrame_encodeFrame (hp : p.length ≤ 255) :
    crcFrame (encodeFrame id sy co seq p seed) seed = rxCrc (encodeFrame id sy co seq p seed) := by
  have hcrc : crcFrame (encodeFrame id sy co seq p seed) seed =
      frameChecksum id sy co seq p seed := by
    rw [crcFrame, frameL_encodeFrame _ _ _ _ _ hp, encodeFrame_eq, slice_append_left _ (by simp)]
    rfl
  have hrx : rxCrc (encodeFrame id sy co seq p seed) = frameChecksum id sy co seq p seed := by
    rw [rxCrc, frameL_encodeFrame _ _ _ _ _ hp, encodeFrame_eq]
    simp [peek, List.getElem?_append_right, Nat.add_sub_add_right, halfOfBytes_low_high]
  rw [hcrc, hrx]

end

/-! ### The end of a SEND -/

/-- The length error of a payload that fits its latch (60_exceptions.md R153). -/
theorem EventLegal.of_lengths {cfg : Config} {c id : Byte} {e : RegEntry} {n : Nat}
    (hc : c.toNat < cfg.nch) (hreg : cfg.reg id = some e) (hl : e.len.toNat ≠ n)
    (hn : n ≤ payDepth) : EventLegal cfg (.error .lenMismatch c (infoOfLengths e.len n)) := by
  have hlt : n < 2 ^ 8 := Nat.lt_succ_of_le hn
  refine ⟨hc, e, BitVec.ofNat 8 n, id, hreg, ?_, ?_⟩
  · intro heq
    exact hl (by rw [heq, BitVec.toNat_ofNat, Nat.mod_eq_of_lt hlt])
  · rw [BitVec.setWidth_ofNat_of_le_of_lt (by omega) hlt]
    rfl

/-- An encoded frame of a registered id, its payload of the registered length (30_encoding.md R65). -/
theorem EventLegal.of_encodeFrame {cfg : Config} {c id : Byte} (sy co seq : Byte) {p : List Byte}
    {e : RegEntry} (hc : c.toNat < cfg.nch) (hreg : cfg.reg id = some e)
    (hl : e.len.toNat = p.length) :
    EventLegal cfg (.sent c (encodeFrame id sy co seq p e.seed)) := by
  have hp : p.length ≤ 255 := by omega
  refine ⟨hc, by simp, ?_, e, by simpa using hreg, ?_, crcFrame_encodeFrame id sy co seq e.seed hp⟩
  · rw [encodeFrame_length, frameL_encodeFrame id sy co seq e.seed hp]
  · rw [peek_encodeFrame_len, ← hl, BitVec.ofNat_toNat, BitVec.setWidth_eq]

section
variable (cfg : Config) (c id sy co : Byte) (p : List Byte) (s : State)

/-- The end of a SEND closes the command and emits one event, legal when the payload fits its latch.
Only the frame of a channel of the FCB moves a counter, that channel's (42_session.md R129). -/
theorem sendResult_event : ∃ ev, (p.length ≤ payDepth → EventLegal cfg ev) ∧
    (sendResult cfg c id sy co p s = s.closeCommand.emits [ev] ∨
      c.toNat < cfg.nch ∧ (∃ seed, ev = .sent c (encodeFrame id sy co (s.txseq c) p seed)) ∧
        sendResult cfg c id sy co p s = (s.closeCommand.emits [ev]).setTxseq c (s.txseq c + 1)) := by
  rcases sendResult_cases cfg c id sy co p s with ⟨hc, h⟩ | ⟨hc, hreg, h⟩ | ⟨e, hc, hreg, hl, h⟩ |
    ⟨e, hc, hreg, hl, h⟩
  · exact ⟨.error .channel c 0x2000, fun _ => ⟨hc, .inr rfl⟩, .inl h⟩
  · exact ⟨.error .unknownMsgid c (byteToHalf id), fun _ => ⟨hc, id, hreg, rfl⟩, .inl h⟩
  · exact ⟨.error .lenMismatch c (infoOfLengths e.len p.length), .of_lengths hc hreg hl, .inl h⟩
  · exact ⟨.sent c (encodeFrame id sy co (s.txseq c) p e.seed),
      fun _ => .of_encodeFrame sy co (s.txseq c) hc hreg hl, .inr ⟨hc, ⟨e.seed, rfl⟩, h⟩⟩

@[simp] theorem sendResult_sq : (sendResult cfg c id sy co p s).sq = .idle := by
  obtain ⟨ev, -, h | ⟨-, -, h⟩⟩ := sendResult_event cfg c id sy co p s <;> simp [h]

@[simp] theorem sendResult_p : (sendResult cfg c id sy co p s).p = Latches.empty := by
  obtain ⟨ev, -, h | ⟨-, -, h⟩⟩ := sendResult_event cfg c id sy co p s <;> simp [h]

@[simp] theorem sendResult_fault : (sendResult cfg c id sy co p s).fault = s.fault := by
  obtain ⟨ev, -, h | ⟨-, -, h⟩⟩ := sendResult_event cfg c id sy co p s <;> simp [h]

@[simp] theorem sendResult_buf (d : Byte) : (sendResult cfg c id sy co p s).buf d = s.buf d := by
  obtain ⟨ev, -, h | ⟨-, -, h⟩⟩ := sendResult_event cfg c id sy co p s <;> simp [h]

/-- An entry that is no channel of the FCB is not written (log entry 4). -/
theorem sendResult_chan_unused {d : Byte} (hd : cfg.nch ≤ d.toNat) :
    (sendResult cfg c id sy co p s).chan d = s.chan d := by
  obtain ⟨ev, -, h | ⟨hc, -, h⟩⟩ := sendResult_event cfg c id sy co p s
  · simp [h]
  · have hne : d ≠ c := by rintro rfl; omega
    simp [h, hne]

theorem sendResult_out : ∃ ev, (sendResult cfg c id sy co p s).out = s.out ++ [ev] ∧
    (p.length ≤ payDepth → EventLegal cfg ev) := by
  obtain ⟨ev, hev, h | ⟨-, -, h⟩⟩ := sendResult_event cfg c id sy co p s <;>
    exact ⟨ev, by simp [h], hev⟩

/-- A counter moves only with the frame that carries its value (10_state.md R22). -/
theorem sendResult_txseq {d : Byte} (hd : (sendResult cfg c id sy co p s).txseq d ≠ s.txseq d) :
    (sendResult cfg c id sy co p s).txseq d = s.txseq d + 1 ∧
      ∃ f, (sendResult cfg c id sy co p s).out = s.out ++ [.sent d f] ∧ peek f 2 = s.txseq d := by
  obtain ⟨ev, -, h | ⟨-, ⟨seed, rfl⟩, h⟩⟩ := sendResult_event cfg c id sy co p s
  · simp [h] at hd
  · obtain rfl : d = c := by
      by_contra hne
      simp [h, hne] at hd
    rw [h]
    exact ⟨State.setTxseq_txseq_same _ _ _, _, rfl, peek_encodeFrame_seq id sy co _ p seed⟩

end

/-- The end of a SEND whose checks all pass (42_session.md R129). -/
theorem sendResult_sent {cfg : Config} {c id : Byte} (sy co : Byte) {p : List Byte} (s : State)
    {e : RegEntry} (hc : c.toNat < cfg.nch) (hreg : cfg.reg id = some e)
    (hl : e.len.toNat = p.length) : sendResult cfg c id sy co p s =
      (s.closeCommand.emits [.sent c (encodeFrame id sy co (s.txseq c) p e.seed)]).setTxseq c
        (s.txseq c + 1) := by
  simp only [sendResult, if_neg (Nat.not_le.2 hc), hreg, hl, ne_eq, not_true_eq_false, if_false]

/-- Settles O39: the last payload byte goes to the end of the SEND, whose checks all pass. -/
theorem dataSendsFrame : Obligations.DataSendsFrame := by
  intro s x n c id sy co p e hsq hpay hplen hlen hch hid hsy hco hc hreg hn
  have hstep : exec (.data x) s = .next (sendResult Config.chip c id sy co (p ++ [x]) s) := by
    rw [← sendData_last hsq hpay hplen hlen hch hid hsy hco]
    simp [exec, execData, dataIn, hsq]
  rw [sendResult_sent sy co s hc hreg (by simp [hn, hlen])] at hstep
  refine ⟨_, hstep, rfl, rfl, rfl, ?_, fun d hd => by simp [hd], by simp⟩
  rw [State.setTxseq_txseq_same, BitVec.toNat_add]
  rfl

/-! ### What a step can do -/

/-- A change that leaves the channel file and FAULT as they are and emits only legal events. -/
structure Quiet (cfg : Config) (s t : State) : Prop where
  chan : ∀ d, t.chan d = s.chan d
  fault : t.fault = s.fault
  out : ∃ es, t.out = s.out ++ es ∧ ∀ ev ∈ es, EventLegal cfg ev

theorem Quiet.buf {cfg : Config} {s t : State} (h : Quiet cfg s t) (d : Byte) :
    t.buf d = s.buf d := congrArg Channel.buf (h.chan d)

theorem Quiet.txseq {cfg : Config} {s t : State} (h : Quiet cfg s t) (d : Byte) :
    t.txseq d = s.txseq d := congrArg Channel.txseq (h.chan d)

theorem Quiet.refl (cfg : Config) (s : State) : Quiet cfg s s :=
  ⟨fun _ => rfl, rfl, [], by simp, by simp⟩

theorem Quiet.setLatches {cfg : Config} {s t : State} (h : Quiet cfg s t) (l : Latches) :
    Quiet cfg s (t.setLatches l) := ⟨h.chan, h.fault, h.out⟩

theorem Quiet.setSq {cfg : Config} {s t : State} (h : Quiet cfg s t) (q : Sequencer) :
    Quiet cfg s (t.setSq q) := ⟨h.chan, h.fault, h.out⟩

theorem Quiet.closeCommand (cfg : Config) (s : State) : Quiet cfg s s.closeCommand :=
  ((Quiet.refl cfg s).setSq .idle).setLatches Latches.empty

theorem Quiet.emit {cfg : Config} {s t : State} (h : Quiet cfg s t) {ev : Event}
    (hev : EventLegal cfg ev) : Quiet cfg s (t.emits [ev]) := by
  obtain ⟨es, hout, hes⟩ := h.out
  refine ⟨h.chan, h.fault, es ++ [ev], by simp [hout], ?_⟩
  simpa [or_imp, forall_and, hev] using hes

/-- Taking a word from the port is no change of the rest. -/
theorem Quiet.of_setInput {cfg : Config} {s t : State} {rest : List PortInput}
    (h : Quiet cfg (s.setInput rest) t) : Quiet cfg s t := ⟨h.chan, h.fault, h.out⟩

/-- An abort closes the command and emits a legal error (42_session.md R131, 60_exceptions.md R153). -/
theorem Quiet.abortWith (cfg : Config) {s : State} {op k : Nibble} {ch : Byte}
    (h : Opened s k ch) : Quiet cfg s (abortWith op k ch s) := by
  refine (Quiet.closeCommand cfg s).emit ⟨op, ?_⟩
  rcases h with ⟨-, rfl, rfl⟩ | ⟨-, rfl, -⟩
  · exact .inr ⟨rfl, rfl⟩
  · exact .inl rfl

/-- A CRC header changes no channel, and completes with a legal event or with none (R95, R96). -/
theorem Quiet.crcHeader (cfg : Config) (e : Byte) (n : Half) (s : State) :
    Quiet cfg s (crcHeader e n s) := by
  rcases crcHeader_cases e n s with ⟨-, h⟩ | ⟨-, h⟩ <;> rw [h]
  · exact (Quiet.closeCommand cfg s).emit trivial
  · exact ((Quiet.refl cfg s).setLatches _).setSq _

/-- An illegal word in IDLE is reported by a legal error (42_session.md R122). -/
theorem Quiet.illegal (cfg : Config) (op : Nibble) (s : State) : Quiet cfg s (illegal op s) :=
  (Quiet.refl cfg s).emit ⟨rfl, op, rfl⟩

/-- Only a FEED in IDLE and the end of a SEND reach the channel file. -/
theorem effect_kinds {cfg : Config} {i : Instr} {s t : State} (h : Effect cfg s i t) :
    (∃ c x, i = .feed c x ∧ s.sq = .idle ∧ t = feed cfg c x s) ∨
    (∃ c id sy co p, (LatchesFit s.sq s.p → p.length ≤ payDepth) ∧
      t = sendResult cfg c id sy co p s) ∨
    Quiet cfg s t := by
  have hrefl := Quiet.refl cfg s
  cases h with
  | nop => exact .inr (.inr hrefl)
  | feed c x hsq => exact .inl ⟨c, x, rfl, hsq, rfl⟩
  | send => exact .inr (.inr ((hrefl.setLatches _).setSq _))
  | crc e n => exact .inr (.inr (.crcHeader cfg e n s))
  | strayId => exact .inr (.inr (hrefl.emit ⟨rfl, .inl rfl⟩))
  | strayData => exact .inr (.inr (hrefl.emit ⟨rfl, .inr rfl⟩))
  | aborted k ch _ _ hopen => exact .inr (.inr (.abortWith cfg hopen))
  | ids => exact .inr (.inr ((hrefl.setLatches _).setSq _))
  | idsLast sy co c id p _ _ _ _ hpay =>
    exact .inr (.inl ⟨c, id, sy, co, p, fun hfit => hfit.pay_le hpay, rfl⟩)
  | payload => exact .inr (.inr (hrefl.setLatches _))
  | payloadLast x n c id sy co p _ _ _ hlen =>
    refine .inr (.inl ⟨c, id, sy, co, p ++ [x], fun _ => ?_, rfl⟩)
    have := n.isLt
    simp only [List.length_append, List.length_singleton, payDepth]
    omega
  | fold => exact .inr (.inr (hrefl.setLatches _))
  | foldLast => exact .inr (.inr ((Quiet.closeCommand cfg s).emit trivial))

/-- `StepKind s t`: how a step can take `s` to `t`, by what it does to the channel file. -/
inductive StepKind (s : State) : State → Prop where
  | reset (rest : List PortInput) : s.input = .reset :: rest →
      StepKind s (resetBlock (s.setInput rest))
  | feed (c x : Byte) (rest : List PortInput) : s.input = .word (encode (.feed c x)) :: rest →
      s.sq = .idle → StepKind s (Machine.feed Config.chip c x (s.setInput rest))
  | sendEnd (c id sy co : Byte) (p : List Byte) (rest : List PortInput) :
      (LatchesFit s.sq s.p → p.length ≤ payDepth) →
      StepKind s (sendResult Config.chip c id sy co p (s.setInput rest))
  | quiet {t : State} : Quiet Config.chip s t → StepKind s t

/-- A word that decodes to a FEED is the FEED's word (30_encoding.md R68). -/
theorem encode_of_decode_feed {w : Word} {c x : Byte} (h : decode w = .ok (.feed c x)) :
    w = encode (.feed c x) := by
  unfold decode at h
  split_ifs at h with h0 hrsv hop0 hop hb <;> cases h
  rw [encode]
  conv_lhs => rw [← commandWord_fields (not_not.1 hrsv), hop, hb]

/-- Every step is of one of the four kinds. -/
theorem stepKind_of_step {s t : State} (h : step s = .next t) : StepKind s t := by
  rcases step_next h with ⟨-, -, rfl⟩ | ⟨rest, hin, rfl⟩ | ⟨w, rest, i, hin, -, hdec, hex⟩ |
    ⟨w, rest, e, hin, -, -, hill⟩
  · exact .quiet (.refl _ _)
  · exact .reset rest hin
  · rcases effect_kinds (effect_of_exec hex) with ⟨c, x, rfl, hsq, rfl⟩ |
      ⟨c, id, sy, co, p, hp, rfl⟩ | hquiet
    · exact .feed c x rest (encode_of_decode_feed hdec ▸ hin) hsq
    · exact .sendEnd c id sy co p rest hp
    · exact .quiet hquiet.of_setInput
  · rcases illegalWord_next hill with ⟨-, rfl⟩ | ⟨-, k, ch, hopen, rfl⟩
    · exact .quiet (Quiet.illegal _ (fieldOp w) _).of_setInput
    · exact .quiet (Quiet.abortWith _ hopen).of_setInput

/-- Every step appends events to OUT, legal ones when the latches fit (10_state.md R31). -/
theorem step_out {s t : State} (h : step s = .next t) : ∃ es, t.out = s.out ++ es ∧
    (LatchesFit s.sq s.p → ∀ ev ∈ es, EventLegal Config.chip ev) := by
  cases stepKind_of_step h with
  | reset rest _ => exact ⟨[], by simp, by simp⟩
  | feed c x rest _ _ =>
    obtain ⟨es, hout, hes⟩ := feed_out Config.chip c x (s.setInput rest)
    exact ⟨es, hout, fun _ => hes⟩
  | sendEnd c id sy co p rest hp =>
    obtain ⟨ev, hout, hev⟩ := sendResult_out Config.chip c id sy co p (s.setInput rest)
    exact ⟨[ev], hout, fun hfit => by simpa using hev (hp hfit)⟩
  | quiet hquiet =>
    obtain ⟨es, hout, hes⟩ := hquiet.out
    exact ⟨es, hout, fun _ => hes⟩

/-- Settles O49: whatever the kind of the step, it appends. -/
theorem outputOnlyGrows : Obligations.OutputOnlyGrows := by
  intro s t h
  obtain ⟨es, hout, -⟩ := step_out h
  exact ⟨es, hout.symm⟩

/-- Settles O48: OUT grows by legal events. -/
theorem stepEmitsLegalEvents : Obligations.StepEmitsLegalEvents := by
  intro s t hfit hlegal h
  obtain ⟨es, hout, hes⟩ := step_out h
  rw [hout]
  exact List.forall_mem_append.2 ⟨hlegal, hes hfit⟩

/-- Settles O50: a FEED reaches its own buffer only, and the end of a SEND and a quiet step none. -/
theorem onlyFeedChangesBuffer : Obligations.OnlyFeedChangesBuffer := by
  intro s t d h hd
  cases stepKind_of_step h with
  | reset rest hin => exact .inl ⟨rest, hin⟩
  | feed c x rest hin hsq =>
    obtain rfl : d = c := by
      by_contra hne
      exact hd (congrArg Channel.buf (feed_chan_ne Config.chip x (s.setInput rest) hne))
    exact .inr ⟨x, rest, hin, hsq⟩
  | sendEnd => simp at hd
  | quiet hquiet => exact absurd (hquiet.buf d) hd

/-- Settles O51: only the end of a SEND reaches a counter. -/
theorem onlySentFrameAdvancesCounter : Obligations.OnlySentFrameAdvancesCounter := by
  intro s t d h hd
  cases stepKind_of_step h with
  | reset rest hin => exact .inl ⟨rest, hin⟩
  | feed => simp at hd
  | sendEnd c id sy co p rest _ =>
    obtain ⟨hnext, f, hout, hseq⟩ := sendResult_txseq Config.chip c id sy co p (s.setInput rest) hd
    refine .inr ⟨f, hout, hseq, ?_⟩
    rw [hnext, BitVec.toNat_add]
    rfl
  | quiet hquiet => exact absurd (hquiet.txseq d) hd

/-! ### The invariants -/

/-- Every command keeps the latches fitting the sequencer state (10_state.md R27). -/
theorem effect_latchesFit {cfg : Config} {i : Instr} {s t : State} (h : Effect cfg s i t)
    (hfit : LatchesFit s.sq s.p) : LatchesFit t.sq t.p := by
  cases h with
  | nop => exact hfit
  | feed c x => simpa using hfit
  | send c id n hsq =>
    rw [hsq] at hfit
    exact ⟨c, id, n, by rw [sendHeader, State.setSq_p, State.setLatches_p, show s.p = _ from hfit]⟩
  | crc e n hsq =>
    rw [hsq] at hfit
    rcases crcHeader_cases e n s with ⟨-, h⟩ | ⟨hn, h⟩ <;> rw [h]
    · rfl
    · exact ⟨e, n, crcInit, hn, by rw [State.setSq_p, State.setLatches_p, show s.p = _ from hfit]⟩
  | strayId => exact hfit
  | strayData => exact hfit
  | aborted => rfl
  | ids sy co n hsq hplen hn =>
    rw [hsq] at hfit
    obtain ⟨ch, id, n', hp⟩ := hfit
    obtain rfl : n' = n := by simpa [hp] using hplen
    have hpos : 0 < n'.toNat := by
      simpa [Nat.pos_iff_ne_zero, BitVec.toNat_eq] using hn
    exact ⟨ch, id, n', sy, co, [], hpos, by rw [State.setSq_p, State.setLatches_p, hp]⟩
  | idsLast => simp [LatchesFit]
  | payload x n p hsq hpay hplen hlen =>
    rw [State.setLatches_sq, hsq]
    rw [hsq] at hfit
    obtain ⟨ch, id, n', sy, co, pay, hlt, hp⟩ := hfit
    obtain rfl : n' = n := by simpa [hp] using hplen
    obtain rfl : pay = p := by simpa [hp] using hpay
    refine ⟨ch, id, n', sy, co, pay ++ [x], ?_, by rw [State.setLatches_p, hp]⟩
    simp only [List.length_append, List.length_singleton]
    omega
  | payloadLast => simp [LatchesFit]
  | fold x a r hsq hacc hrem hr =>
    rw [State.setLatches_sq, hsq]
    rw [hsq] at hfit
    obtain ⟨e, r', a', -, hp⟩ := hfit
    exact ⟨e, r - 1, crcAcc a x, hr, by rw [State.setLatches_p, hp]⟩
  | foldLast => rfl

/-- Every step keeps the latches fitting the sequencer state (10_state.md R27). -/
theorem step_latchesFit {s t : State} (h : step s = .next t) (hfit : LatchesFit s.sq s.p) :
    LatchesFit t.sq t.p := by
  rcases step_next h with ⟨-, -, rfl⟩ | ⟨rest, -, rfl⟩ | ⟨w, rest, i, -, -, -, hex⟩ |
    ⟨w, rest, e, -, -, -, hill⟩
  · exact hfit
  · rfl
  · exact effect_latchesFit (effect_of_exec hex) hfit
  · rcases illegalWord_next hill with ⟨-, rfl⟩ | ⟨-, k, ch, -, rfl⟩
    · exact hfit
    · rfl

/-- A FEED leaves every channel quiescent when its own was (10_state.md R25). -/
theorem feed_keeps_quiescent {cfg : Config} (c x : Byte) {s : State}
    (hq : ∀ d, Quiescent cfg (s.buf d)) (d : Byte) : Quiescent cfg ((feed cfg c x s).buf d) := by
  by_cases hd : d = c
  · subst hd
    rcases feed_cases cfg d x s with ⟨-, h⟩ | ⟨-, -, h⟩ | ⟨-, -, h⟩ <;> rw [h]
    · exact hq d
    · exact hq d
    · rw [drainInto_buf_same]
      exact (drain_runs cfg d _).quiescent
  · rw [State.buf, feed_chan_ne cfg x s hd]
    exact hq d

/-- A FEED on a quiescent channel records no fault (10_state.md R28). -/
theorem feed_fault {cfg : Config} {c : Byte} (x : Byte) {s : State}
    (hq : Quiescent cfg (s.buf c)) : (feed cfg c x s).fault = s.fault := by
  have hl := hq.length_le
  rcases feed_cases cfg c x s with ⟨-, h⟩ | ⟨-, hfull, -⟩ | ⟨-, -, h⟩
  · simp [h]
  · omega
  · simp [h]

/-- An entry that is no channel of the FCB is not written (log entry 4). -/
theorem feed_chan_unused {cfg : Config} (c x : Byte) (s : State) {d : Byte}
    (hd : cfg.nch ≤ d.toNat) : (feed cfg c x s).chan d = s.chan d := by
  rcases feed_cases cfg c x s with ⟨-, h⟩ | ⟨-, -, h⟩ | ⟨hc, -, h⟩
  · simp [h]
  · simp [h]
  · rw [h, drainInto_chan_ne cfg _ s (by rintro rfl; omega)]

/-- Settles O46: the latches by the command executed, the rest by the kind of the step. -/
theorem stepKeepsSafe : Obligations.StepKeepsSafe := by
  intro s t hs h
  have hfit := step_latchesFit h hs.latches
  cases stepKind_of_step h with
  | reset rest _ =>
    exact ⟨fun d => .inl (resetBlock_buf _ d), hfit, rfl, fun d _ => resetBlock_chan _ d⟩
  | feed c x rest _ _ =>
    exact ⟨feed_keeps_quiescent c x hs.quiescent, hfit,
      (feed_fault (s := s.setInput rest) x (hs.quiescent c)).trans hs.noFault,
      fun d hd => (feed_chan_unused c x _ hd).trans (hs.unused d hd)⟩
  | sendEnd c id sy co p rest _ =>
    exact ⟨fun d => by simpa using hs.quiescent d, hfit, by simpa using hs.noFault,
      fun d hd => (sendResult_chan_unused _ c id sy co p _ hd).trans (hs.unused d hd)⟩
  | quiet hquiet =>
    exact ⟨fun d => hquiet.buf d ▸ hs.quiescent d, hfit, hquiet.fault.trans hs.noFault,
      fun d hd => (hquiet.chan d).trans (hs.unused d hd)⟩

/-! ### Channel modes -/

theorem channelMode_idle {cfg : Config} {b : List Byte} :
    channelMode cfg b = .idle ↔ b = [] := by
  unfold channelMode
  split_ifs with hb <;> simp [hb]

theorem channelMode_accumulating {cfg : Config} {b : List Byte} :
    channelMode cfg b = .accumulating ↔ b ≠ [] ∧ tryDecode cfg b = .need := by
  unfold channelMode
  split_ifs with hb hd
  · simp [hb]
  · simp [hb, hd]
  · simp [hd]

/-- A mode is Resyncing exactly when a drain has still to decide the head (log entry 16). -/
theorem channelMode_resyncing {cfg : Config} {b : List Byte} :
    channelMode cfg b = .resyncing ↔ ¬ Quiescent cfg b := by
  unfold channelMode
  split_ifs with hb hd
  · simp [hb]
  · simp [hd]
  · simp [hb, hd]

/-- Settles O54: a buffer of a safe state is quiescent, so when it is not empty it needs more bytes. -/
theorem noChannelResyncsBetweenSteps : Obligations.NoChannelResyncsBetweenSteps := by
  refine ⟨fun cfg b => ⟨?_, ?_⟩, fun s c hs => ⟨channelMode_idle, ?_, ?_⟩⟩
  · rw [channelMode_idle, List.length_eq_zero_iff]
  · rw [channelMode_accumulating, List.length_pos_iff]
  · rw [channelMode_accumulating]
    exact and_iff_left_of_imp (hs.quiescent c).resolve_left
  · rw [ne_eq, channelMode_resyncing, not_not]
    exact hs.quiescent c

/-! ### Reset -/

/-- Settles O45, field by field. -/
theorem resetIsSafe : Obligations.ResetIsSafe where
  quiescent c := .inl (resetBlock_buf State.reset c)
  latches := rfl
  noFault := rfl
  unused c _ := reset_chan c

/-- Settles O26: reset leaves every entry at `Channel.reset`, and the other fields are written out. -/
theorem resetValues : Obligations.ResetValues :=
  ⟨resetBlock_buf State.reset, resetBlock_txseq State.reset, rfl, rfl, rfl, rfl, rfl⟩

end Sys2Proof.Machine
end

