-- ==== Sys2Proof/Proofs/Memory.lean ====
section
/-! SUPPORT. What each command reads and writes (20_memory.md R49): the outcomes of FEED, and the
frames of FEED, SENDID and DATA. -/

namespace Sys2Proof.Machine

/-! ### FEED in IDLE -/

theorem execIn_feed_idle {cfg : Config} {s : State} (c x : Byte) (hsq : s.sq = .idle) :
    execIn cfg (.feed c x) s = .next (feed cfg c x s) := whenIdle_idle hsq

/-- A FEED on a number that is no channel is its error (42_session.md R123). -/
theorem feed_badChannel {cfg : Config} {c : Byte} (x : Byte) (s : State) (hc : cfg.nch ≤ c.toNat) :
    feed cfg c x s = s.emits [.error .channel c 0x1000] := by
  rcases feed_cases cfg c x s with ⟨-, h⟩ | ⟨hc', -⟩ | ⟨hc', -⟩
  · exact h
  · omega
  · omega

/-- A FEED onto a full buffer records the fault (20_memory.md R42). -/
theorem feed_full {cfg : Config} {c : Byte} (x : Byte) {s : State} (hc : c.toNat < cfg.nch)
    (hfull : (s.buf c).length = 263) : feed cfg c x s = s.setFault (.bufFull c) := by
  rcases feed_cases cfg c x s with ⟨hc', -⟩ | ⟨-, -, h⟩ | ⟨-, hroom, -⟩
  · omega
  · exact h
  · exact absurd hfull hroom

/-- A FEED that finds room pushes and drains (42_session.md R123). -/
theorem feed_room {cfg : Config} {c : Byte} (x : Byte) {s : State} (hc : c.toNat < cfg.nch)
    (hroom : (s.buf c).length ≠ 263) :
    feed cfg c x s = drainInto cfg c (s.buf c ++ [x]) s := by
  rcases feed_cases cfg c x s with ⟨hc', -⟩ | ⟨-, hfull, -⟩ | ⟨-, -, h⟩
  · omega
  · exact absurd hfull hroom
  · exact h

/-- Settles O31: the FEED finds room, and its drain is a run of the loop of R124. -/
theorem feedPushesAndDrains : Obligations.FeedPushesAndDrains := by
  intro s c x hsq hc hlt
  have hexec : exec (.feed c x) s = .next (drainInto Config.chip c (s.buf c ++ [x]) s) := by
    rw [← feed_room x hc (Nat.ne_of_lt hlt), ← execIn_chip, execIn_feed_idle c x hsq]
  exact ⟨_, _, _, hexec, drain_runs Config.chip c (s.buf c ++ [x]), drainInto_buf_same _ _ _ _, rfl,
    fun d hd => congrArg Channel.buf (drainInto_chan_ne _ _ s hd), drainInto_txseq _ _ _ s,
    rfl, rfl, rfl, rfl⟩

/-- Settles O53: the channel number and the buffer decide between the error, the fault and the push,
and the drain reads the buffer only. -/
theorem feedSeesOnlyItsBuffer : Obligations.FeedSeesOnlyItsBuffer := by
  intro cfg c x s s' t t' hsq hsq' hbuf hfault h h'
  rw [execIn_feed_idle c x hsq] at h
  rw [execIn_feed_idle c x hsq'] at h'
  cases h
  cases h'
  by_cases hc : cfg.nch ≤ c.toNat
  · rw [feed_badChannel x s hc, feed_badChannel x s' hc]
    exact ⟨hbuf, hfault, _, rfl, rfl⟩
  have hc : c.toNat < cfg.nch := Nat.lt_of_not_le hc
  by_cases hfull : (s.buf c).length = 263
  · rw [feed_full x hc hfull, feed_full x hc (hbuf ▸ hfull)]
    exact ⟨hbuf, rfl, [], by simp, by simp⟩
  · rw [feed_room x hc hfull, feed_room x hc (hbuf ▸ hfull), ← hbuf]
    exact ⟨by simp, hfault, _, rfl, rfl⟩

/-! ### The frame of FEED -/

/-- A FEED in IDLE leaves FAULT as it is, or records the full buffer it met (10_state.md R28). -/
theorem feed_fault_cases (cfg : Config) (c x : Byte) (s : State) :
    (feed cfg c x s).fault = s.fault ∨
      (feed cfg c x s).fault = some (.bufFull c) ∧ (s.buf c).length = 263 := by
  rcases feed_cases cfg c x s with ⟨-, h⟩ | ⟨-, hfull, h⟩ | ⟨-, -, h⟩ <;> rw [h]
  · exact .inl rfl
  · exact .inr ⟨rfl, hfull⟩
  · exact .inl rfl

/-- A FEED runs in IDLE and aborts an open command (42_session.md R120). -/
theorem effect_feed {cfg : Config} {c x : Byte} {s t : State} (h : Effect cfg s (.feed c x) t) :
    (s.sq = .idle ∧ t = feed cfg c x s) ∨
    (s.sq ≠ .idle ∧ ∃ k ch, t = abortWith 0x1 k ch s) := by
  cases h with
  | feed _ _ hsq => exact .inl ⟨hsq, rfl⟩
  | aborted _ k ch hsq _ => exact .inr ⟨hsq, k, ch, rfl⟩

/-- Settles O42: in IDLE by what a FEED does there, elsewhere by what an abort does. -/
theorem feedFrame : Obligations.FeedFrame := by
  intro s t c x h
  have heff := effect_of_exec h
  have hinput := effect_input heff
  rcases effect_feed heff with ⟨hsq, rfl⟩ | ⟨hsq, k, ch, rfl⟩
  · obtain ⟨es, hout, -⟩ := feed_out Config.chip c x s
    refine ⟨fun d hd => congrArg Channel.buf (feed_chan_ne _ x s hd), feed_txseq _ c x s, hinput,
      ⟨es, hout.symm⟩, ?_, fun _ => ⟨feed_sq _ c x s, feed_p _ c x s⟩, fun hne => absurd hsq hne⟩
    exact (feed_fault_cases Config.chip c x s).imp_right fun ⟨hf, hfull⟩ => ⟨hf, hfull, hsq⟩
  · exact ⟨fun _ _ => rfl, fun _ => rfl, hinput, ⟨_, rfl⟩, .inl rfl, fun hidle => absurd hidle hsq,
      fun _ => ⟨rfl, rfl, rfl, rfl⟩⟩

/-! ### The frame of SENDID and DATA -/

/-- The end of a SEND leaves the counter of every other channel (42_session.md R129). -/
theorem sendResult_txseq_ne (cfg : Config) {c d : Byte} (id sy co : Byte) (p : List Byte) (s : State)
    (hd : d ≠ c) : (sendResult cfg c id sy co p s).txseq d = s.txseq d := by
  obtain ⟨ev, -, h | ⟨-, -, h⟩⟩ := sendResult_event cfg c id sy co p s <;> simp [h, hd]

/-- A SENDID or DATA word ends the SEND open on channel `P.CH`, or writes no more than the sequencer,
the latches and one event (42_session.md R127 to R131). -/
theorem effect_sendWord {cfg : Config} {i : Instr} {s t : State} (h : Effect cfg s i t)
    (hi : (∃ sy co, i = .sendid sy co) ∨ ∃ x, i = .data x) :
    (∃ c id sy co p, s.p.ch = some c ∧ t = sendResult cfg c id sy co p s) ∨
    ∃ q l es, es.length ≤ 1 ∧ t = ((s.setSq q).setLatches l).emits es := by
  cases h with
  | nop => simp at hi
  | feed => simp at hi
  | send => simp at hi
  | crc => simp at hi
  | strayId => exact .inr ⟨s.sq, s.p, [_], le_rfl, rfl⟩
  | strayData => exact .inr ⟨s.sq, s.p, [_], le_rfl, rfl⟩
  | aborted => exact .inr ⟨.idle, Latches.empty, [_], le_rfl, rfl⟩
  | ids => exact .inr ⟨.sendData, _, [], Nat.zero_le 1, (State.emits_nil _).symm⟩
  | idsLast sy co c id p _ _ hch => exact .inl ⟨c, id, sy, co, p, hch, rfl⟩
  | payload => exact .inr ⟨s.sq, _, [], Nat.zero_le 1, (State.emits_nil _).symm⟩
  | payloadLast x n c id sy co p _ _ _ _ hch => exact .inl ⟨c, id, sy, co, p ++ [x], hch, rfl⟩
  | fold => exact .inr ⟨s.sq, _, [], Nat.zero_le 1, (State.emits_nil _).symm⟩
  | foldLast => exact .inr ⟨.idle, Latches.empty, [_], le_rfl, rfl⟩

/-- Settles O44: only the end of the open SEND reaches the channel file, and there its own counter. -/
theorem sendWordFrame : Obligations.SendWordFrame := by
  intro s t i hi h
  have heff := effect_of_exec h
  have hinput := effect_input heff
  rcases effect_sendWord heff hi with ⟨c, id, sy, co, p, hch, rfl⟩ | ⟨q, l, es, hes, rfl⟩
  · obtain ⟨ev, hout, -⟩ := sendResult_out Config.chip c id sy co p s
    refine ⟨sendResult_buf _ c id sy co p s, fun d hd => ?_, sendResult_fault _ c id sy co p s,
      hinput, [ev], hout, le_rfl⟩
    exact sendResult_txseq_ne _ id sy co p s (by rintro rfl; exact hd hch)
  · exact ⟨fun _ => rfl, fun _ _ => rfl, rfl, rfl, es, rfl, hes⟩

end Sys2Proof.Machine
end

/-! SUPPORT. The encodings (30_encoding.md): the command words and the opcode table, valid frames,
the assembler and its pseudo-commands, and the event words. -/

namespace Sys2Proof

/-! ### Command words -/

/-- The fields of `w` are those of command `i` in its format (30_encoding.md R67 to R72). -/
def InFormat (w : Word) : Instr → Prop
  | .nop => w = 0
  | .feed ch byte =>
    fieldOp w = 0x1 ∧ fieldRsv w = 0 ∧ fieldA w = ch ∧ fieldB w = 0 ∧ fieldC w = byte
  | .send ch msgid plen =>
    fieldOp w = 0x2 ∧ fieldRsv w = 0 ∧ fieldA w = ch ∧ fieldB w = msgid ∧ fieldC w = plen
  | .sendid sysid compid =>
    fieldOp w = 0x3 ∧ fieldRsv w = 0 ∧ fieldA w = 0 ∧ fieldB w = sysid ∧ fieldC w = compid
  | .data byte => fieldOp w = 0x4 ∧ fieldRsv w = 0 ∧ fieldA w = 0 ∧ fieldB w = 0 ∧ fieldC w = byte
  | .crc seed n => fieldOp w = 0x5 ∧ fieldRsv w = 0 ∧ fieldA w = seed ∧ fieldN w = n

theorem ne_zero_of_fieldOp {w : Word} (h : fieldOp w ≠ 0) : w ≠ 0#32 := by
  rintro rfl
  exact h rfl

/-- A word decodes to a command exactly when its fields are the command's (R74). -/
theorem decode_eq_ok {w : Word} {i : Instr} : decode w = .ok i ↔ InFormat w i := by
  constructor
  · -- each branch that answers a command has tested the fields of its format
    intro h
    unfold decode at h
    split_ifs at h <;> cases h <;> simp_all [InFormat]
  · intro h
    cases i with
    | nop => exact if_pos h
    | _ =>
      obtain ⟨hop, hrsv, h⟩ := h
      have hw := ne_zero_of_fieldOp (w := w) (by simp [hop])
      simp [decode, hw, hop, hrsv, h]

/-- The word of a command has the command's fields. -/
theorem inFormat_encode (i : Instr) : InFormat (encode i) i := by
  cases i with
  | nop => exact rfl
  | crc seed n => refine ⟨?_, ?_, ?_, fieldN_encode_crc seed n⟩ <;> simp [encode_crc]
  | _ => simp [InFormat, encode]

/-- The count of format C is its two low bytes (R72). -/
theorem fieldN_bytes (w : Word) :
    (fieldN w).extractLsb' 8 8 = fieldB w ∧ (fieldN w).extractLsb' 0 8 = fieldC w := by
  simp [fieldN, fieldB, fieldC]

/-- A word with a command's fields is the command's word. -/
theorem encode_of_inFormat {w : Word} {i : Instr} (h : InFormat w i) : encode i = w := by
  cases i with
  | nop => exact h.symm
  | crc seed n =>
    obtain ⟨hop, hrsv, rfl, rfl⟩ := h
    obtain ⟨hhi, hlo⟩ := fieldN_bytes w
    rw [encode_crc, hhi, hlo, ← hop, commandWord_fields hrsv]
  | _ =>
    obtain ⟨hop, hrsv, ha, hb, hc⟩ := h
    simpa only [encode, hop, ha, hb, hc] using commandWord_fields hrsv

/-- Settles O1: the word of a command has the command's fields, and those decide the decoder. -/
theorem decodeOfEncode : Obligations.DecodeOfEncode := fun i => decode_eq_ok.2 (inFormat_encode i)

/-- Settles O2: a word that decodes to a command has the command's fields, which are all of it. -/
theorem encodeOfDecode : Obligations.EncodeOfDecode :=
  fun _ _ h => encode_of_inFormat (decode_eq_ok.1 h)

/-- Settles O5: each word is the word of its command. -/
theorem writtenWordsDecode : Obligations.WrittenWordsDecode :=
  ⟨decodeOfEncode .nop, decodeOfEncode (.feed 0x02 0x55), decodeOfEncode (.send 0x01 0xFE 0x09),
    decodeOfEncode (.sendid 0xFF 0x01), decodeOfEncode (.data 0xDF),
    decodeOfEncode (.crc 0x32 0x000E)⟩

/-! ### Legal words -/

/-- There is a command with a property when there is one of some format. -/
theorem Instr.exists_iff {P : Instr → Prop} : (∃ i, P i) ↔ P .nop ∨ (∃ ch byte, P (.feed ch byte)) ∨
    (∃ ch msgid plen, P (.send ch msgid plen)) ∨ (∃ sysid compid, P (.sendid sysid compid)) ∨
    (∃ byte, P (.data byte)) ∨ ∃ seed n, P (.crc seed n) := by
  constructor
  · rintro ⟨i, h⟩
    cases i with
    | nop => exact .inl h
    | feed ch byte => exact .inr (.inl ⟨ch, byte, h⟩)
    | send ch msgid plen => exact .inr (.inr (.inl ⟨ch, msgid, plen, h⟩))
    | sendid sysid compid => exact .inr (.inr (.inr (.inl ⟨sysid, compid, h⟩)))
    | data byte => exact .inr (.inr (.inr (.inr (.inl ⟨byte, h⟩))))
    | crc seed n => exact .inr (.inr (.inr (.inr (.inr ⟨seed, n, h⟩))))
  · rintro (h | ⟨_, _, h⟩ | ⟨_, _, _, h⟩ | ⟨_, _, h⟩ | ⟨_, h⟩ | ⟨_, _, h⟩) <;> exact ⟨_, h⟩

/-- The legal words by their fields (R67 to R72). -/
theorem legal_iff {w : Word} : (∃ i, decode w = .ok i) ↔ w = 0 ∨ fieldRsv w = 0 ∧
    (fieldOp w = 0x1 ∧ fieldB w = 0 ∨ fieldOp w = 0x2 ∨ fieldOp w = 0x3 ∧ fieldA w = 0 ∨
      fieldOp w = 0x4 ∧ fieldA w = 0 ∧ fieldB w = 0 ∨ fieldOp w = 0x5) := by
  simp only [decode_eq_ok, Instr.exists_iff, InFormat, exists_and_left, exists_eq_left',
    exists_eq', and_true]
  tauto

/-- The opcode map below the reserved opcodes (R73). -/
theorem opcode_cases : ∀ op : Nibble, op.toNat < 6 →
    op = 0x0 ∨ op = 0x1 ∨ op = 0x2 ∨ op = 0x3 ∨ op = 0x4 ∨ op = 0x5 := by
  decide

/-- Settles O4: what is left when the legal words are taken away, one opcode at a time. -/
theorem illegalWordsByField : Obligations.IllegalWordsByField := by
  intro w
  have hill : (∃ e, decode w = .error e) ↔ ¬ ∃ i, decode w = .ok i := by
    cases decode w <;> simp
  rw [hill, legal_iff]
  by_cases hw : w = 0#32
  · subst hw
    decide
  by_cases hres : 0x6 ≤ (fieldOp w).toNat
  · have hne : ∀ k : Nibble, k.toNat < 6 → fieldOp w ≠ k := by rintro k hk rfl; omega
    simp [hres, hw, hne]
  · rcases opcode_cases (fieldOp w) (Nat.lt_of_not_le hres) with h | h | h | h | h | h
    all_goals simp [hw, h, imp_iff_not_or]

/-! ### The opcode table -/

/-- A word is its fields, one behind the other (R66). -/
theorem append_fields (w : Word) :
    (fieldOp w ++ fieldRsv w ++ fieldA w ++ fieldB w ++ fieldC w : BitVec 32) = w := by
  simp only [fieldOp, fieldRsv, fieldA, fieldB, fieldC]
  repeat rw [BitVec.extractLsb'_append_extractLsb'_eq_extractLsb' (by rfl)]
  exact BitVec.extractLsb'_eq_self

/-- Two words are equal when their fields are. -/
theorem word_ext_iff {w v : Word} : w = v ↔ fieldOp w = fieldOp v ∧ fieldRsv w = fieldRsv v ∧
    fieldA w = fieldA v ∧ fieldB w = fieldB v ∧ fieldC w = fieldC v := by
  constructor
  · rintro rfl
    exact ⟨rfl, rfl, rfl, rfl, rfl⟩
  · rintro ⟨hop, hrsv, ha, hb, hc⟩
    rw [← append_fields w, ← append_fields v, hop, hrsv, ha, hb, hc]

/-- A row is matched field by field. -/
theorem OpcodeRow.hits_iff {r : OpcodeRow} {w : Word} : r.hits w = true ↔
    fieldOp w &&& fieldOp r.mask = fieldOp r.pattern ∧
    fieldRsv w &&& fieldRsv r.mask = fieldRsv r.pattern ∧
    fieldA w &&& fieldA r.mask = fieldA r.pattern ∧
    fieldB w &&& fieldB r.mask = fieldB r.pattern ∧
    fieldC w &&& fieldC r.mask = fieldC r.pattern := by
  simp only [OpcodeRow.hits, decide_eq_true_eq, word_ext_iff (w := w &&& r.mask)]
  simp only [fieldOp, fieldRsv, fieldA, fieldB, fieldC, BitVec.extractLsb'_and]

theorem and_ones_nibble (x : Nibble) : x &&& 0xF#4 = x := BitVec.and_allOnes

theorem and_ones_byte (x : Byte) : x &&& 0xFF#8 = x := BitVec.and_allOnes

/-- A row of the table is matched exactly by the words of its mnemonic's commands (R74). -/
theorem row_hits_iff {r : OpcodeRow} (hr : r ∈ opcodeTable) (w : Word) :
    r.hits w = true ↔ ∃ i, decode w = .ok i ∧ i.mnemonic = r.mnemonic := by
  simp only [opcodeTable, List.mem_cons, List.not_mem_nil, or_false] at hr
  simp only [decode_eq_ok, Instr.exists_iff, InFormat, Instr.mnemonic, OpcodeRow.hits_iff,
    word_ext_iff (v := 0)]
  rcases hr with rfl | rfl | rfl | rfl | rfl | rfl
  all_goals simp [fieldOp, fieldRsv, fieldA, fieldB, fieldC, and_ones_nibble, and_ones_byte]

/-- Each mnemonic stands in one row. -/
theorem filter_mnemonic (i : Instr) :
    (opcodeTable.filter (·.mnemonic = i.mnemonic)).map (·.mnemonic) = [i.mnemonic] := by
  cases i <;> simp [opcodeTable, Instr.mnemonic]

/-- A legal word matches the one row of its command's mnemonic. -/
theorem rows_of_decode {w : Word} {i : Instr} (h : decode w = .ok i) :
    (opcodeTable.filter (·.hits w)).map (·.mnemonic) = [i.mnemonic] := by
  rw [← filter_mnemonic i, List.filter_congr]
  intro r hr
  rw [Bool.eq_iff_iff, row_hits_iff hr]
  simp [h, eq_comm]

/-- Settles O3: a legal word matches its command's row alone, and a word in some row is legal. -/
theorem legalWordMatchesOneRow : Obligations.LegalWordMatchesOneRow := by
  refine ⟨fun w => ⟨?_, fun hlen => ?_⟩, fun w i => rows_of_decode⟩
  · rintro ⟨i, hi⟩
    simpa using congrArg List.length (rows_of_decode hi)
  · obtain ⟨r, hr⟩ := List.exists_mem_of_length_pos (hlen ▸ Nat.one_pos)
    obtain ⟨hmem, hhits⟩ := List.mem_filter.1 hr
    obtain ⟨i, hi, -⟩ := (row_hits_iff hmem w).1 hhits
    exact ⟨i, hi⟩

end Sys2Proof

namespace Sys2Proof.Machine

/-! ### Valid frames (R65) -/

/-- A valid frame at the head of a buffer is accepted, whatever follows it. -/
theorem tryDecode_of_validFrame {cfg : Config} {f : List Byte} (hf : ValidFrame cfg f)
    (t : List Byte) : tryDecode cfg (f ++ t) = .decoded f.length f := by
  obtain ⟨hm, hlen, hchecks⟩ := hf
  have hL : frameL (f ++ t) = frameL f := frameL_append_left t (by omega)
  rw [tryDecode_whole ((peek_append_left t (by omega)).trans hm) (by simp [hL, hlen]),
    wholeFrame_append_left cfg t hlen.ge, wholeFrame_decoded, ← hlen]
  exact ⟨rfl, List.take_length.symm, hchecks⟩

/-- What a decode attempt accepts is the head of the buffer. -/
theorem tryDecode_decoded_take {cfg : Config} {b f : List Byte} {n : Nat}
    (h : tryDecode cfg b = .decoded n f) : f = b.take n := by
  rcases tryDecode_cases cfg b with ⟨-, h'⟩ | ⟨-, -, h'⟩ | ⟨-, -, h'⟩ | ⟨-, -, h'⟩ <;> rw [h'] at h
  · cases h
  · cases h
  · cases h
  · obtain ⟨rfl, hf, -⟩ := wholeFrame_decoded.1 h
    exact hf

/-- The payload of an encoded frame, read back (41_frame_codec.md R106). -/
theorem slice_encodeFrame_payload (id sy co seq : Byte) (p : List Byte) (seed : Byte) :
    slice (encodeFrame id sy co seq p seed) 6 (5 + p.length) = p := by
  rw [encodeFrame_eq, slice_append_left _ (by simp)]
  simp [slice, frameBody, Nat.add_comm 5]

/-- The encoder's frames are valid (30_encoding.md R65). -/
theorem validFrame_encodeFrame {cfg : Config} {id : Byte} (sy co seq : Byte) {p : List Byte}
    {e : RegEntry} (hreg : cfg.reg id = some e) (hlen : e.len.toNat = p.length)
    (hunpack : cfg.unpackOk id p = true) :
    ValidFrame cfg (encodeFrame id sy co seq p e.seed) := by
  have hp : p.length ≤ 255 := by omega
  have hL := frameL_encodeFrame id sy co seq e.seed hp
  refine ⟨by simp, by simp [hL], e, by simpa using hreg, ?_,
    crcFrame_encodeFrame id sy co seq e.seed hp, ?_⟩
  · rw [peek_encodeFrame_len, ← hlen, BitVec.ofNat_toNat, BitVec.setWidth_eq]
  · rw [hL, slice_encodeFrame_payload, peek_encodeFrame_msgid, hunpack]

/-- Settles O13: a valid frame is accepted whatever follows it, and what is accepted is a valid
frame and the head of the buffer. -/
theorem tryDecodeAcceptsValidFrames : Obligations.TryDecodeAcceptsValidFrames := by
  refine ⟨fun cfg b n f => ⟨fun h => ?_, ?_⟩,
    fun cfg id sy co seq p e => validFrame_encodeFrame sy co seq⟩
  · have hf : f = b.take n := tryDecode_decoded_take h
    obtain ⟨-, hn⟩ := tryDecode_decoded_length h
    exact ⟨tryDecode_decoded_valid h, by simp [hf, hn], hf ▸ List.take_prefix n b⟩
  · rintro ⟨hf, rfl, t, rfl⟩
    exact tryDecode_of_validFrame hf t

/-! ### The assembler (R76, R77) -/

theorem ofNat_shiftLeft (w n k : Nat) : BitVec.ofNat w (n <<< k) = BitVec.ofNat w n <<< k := by
  apply BitVec.eq_of_toNat_eq
  simp [Nat.shiftLeft_eq]

theorem setWidth_byte {n : Nat} (h : n < 256) :
    (BitVec.ofNat 8 n).setWidth 32 = BitVec.ofNat 32 n :=
  BitVec.setWidth_ofNat_of_le_of_lt (by decide) h

/-- A word of the common layout from numbers that fit their fields, as R76 writes it. -/
theorem commandWord_ofNat {op a b c : Nat} (hop : op < 16) (ha : a < 256) (hb : b < 256)
    (hc : c < 256) :
    commandWord (BitVec.ofNat 4 op) (BitVec.ofNat 8 a) (BitVec.ofNat 8 b) (BitVec.ofNat 8 c) =
      BitVec.ofNat 32 (op <<< 28 ||| a <<< 16 ||| b <<< 8 ||| c) := by
  have hop' : (BitVec.ofNat 4 op).setWidth 32 = BitVec.ofNat 32 op :=
    BitVec.setWidth_ofNat_of_le_of_lt (by decide) hop
  simp only [commandWord, BitVec.ofNat_or, ofNat_shiftLeft, hop', setWidth_byte ha,
    setWidth_byte hb, setWidth_byte hc]

theorem encode_feed_ofNat {ch x : Nat} (hch : ch < 256) (hx : x < 256) :
    encode (.feed (BitVec.ofNat 8 ch) (BitVec.ofNat 8 x)) =
      BitVec.ofNat 32 (0x1 <<< 28 ||| ch <<< 16 ||| x) := by
  have h := commandWord_ofNat (op := 0x1) (b := 0) (by decide) hch (by decide) hx
  rw [Nat.zero_shiftLeft, Nat.or_zero] at h
  exact h

theorem encode_send_ofNat {ch id n : Nat} (hch : ch < 256) (hid : id < 256) (hn : n < 256) :
    encode (.send (BitVec.ofNat 8 ch) (BitVec.ofNat 8 id) (BitVec.ofNat 8 n)) =
      BitVec.ofNat 32 (0x2 <<< 28 ||| ch <<< 16 ||| id <<< 8 ||| n) :=
  commandWord_ofNat (op := 0x2) (by decide) hch hid hn

theorem encode_sendid_ofNat {sy co : Nat} (hsy : sy < 256) (hco : co < 256) :
    encode (.sendid (BitVec.ofNat 8 sy) (BitVec.ofNat 8 co)) =
      BitVec.ofNat 32 (0x3 <<< 28 ||| sy <<< 8 ||| co) :=
  commandWord_ofNat (op := 0x3) (a := 0) (by decide) (by decide) hsy hco

theorem encode_data_ofNat {x : Nat} (hx : x < 256) :
    encode (.data (BitVec.ofNat 8 x)) = BitVec.ofNat 32 (0x4 <<< 28 ||| x) :=
  commandWord_ofNat (op := 0x4) (a := 0) (b := 0) (by decide) (by decide) (by decide) hx

theorem encode_crc_ofNat {e n : Nat} (he : e < 256) (hn : n < 65536) :
    encode (.crc (BitVec.ofNat 8 e) (BitVec.ofNat 16 n)) =
      BitVec.ofNat 32 (0x5 <<< 28 ||| e <<< 16 ||| n) := by
  have hhead := commandWord_ofNat (op := 0x5) (b := 0) (c := 0) (by decide) he (by decide)
    (by decide)
  have hcount : (BitVec.ofNat 16 n).setWidth 32 = BitVec.ofNat 32 n :=
    BitVec.setWidth_ofNat_of_le_of_lt (by decide) hn
  rw [Nat.zero_shiftLeft, Nat.or_zero, Nat.or_zero] at hhead
  rw [encode, hcount, BitVec.ofNat_or]
  exact congrArg (· ||| BitVec.ofNat 32 n) hhead

/-- The words of FEEDS (R77). -/
theorem encode_map_feed {ch : Nat} {bs : List Nat} (hch : ch < 256) (hbs : ∀ x ∈ bs, x < 256) :
    (feeds (BitVec.ofNat 8 ch) (bs.map (BitVec.ofNat 8))).map encode =
      bs.map fun x => BitVec.ofNat 32 (0x1 <<< 28 ||| ch <<< 16 ||| x) := by
  simp only [feeds, List.map_map]
  exact List.map_congr_left fun x hx => encode_feed_ofNat hch (hbs x hx)

/-- The DATA words of a list of bytes (R77). -/
theorem encode_map_data {bs : List Nat} (hbs : ∀ x ∈ bs, x < 256) :
    ((bs.map (BitVec.ofNat 8)).map Instr.data).map encode =
      bs.map fun x => BitVec.ofNat 32 (0x4 <<< 28 ||| x) := by
  simp only [List.map_map]
  exact List.map_congr_left fun x hx => encode_data_ofNat (hbs x hx)

@[simp] theorem fitsByte_iff {n : Nat} : fitsByte n = true ↔ n < 256 := by simp [fitsByte]

@[simp] theorem fitsHalf_iff {n : Nat} : fitsHalf n = true ↔ n < 65536 := by simp [fitsHalf]

/-- A line with commands `is` gives their words when its numbers fit, and none otherwise. -/
theorem assembleWords_eq {l : AsmLine} {is : List Instr} {P : Prop} [Decidable P] {ws : List Word}
    (hl : assemble l = if l.wellFormed then some is else none) (hP : l.wellFormed = true ↔ P)
    (hws : P → is.map encode = ws) : assembleWords l = if P then some ws else none := by
  rw [assembleWords, hl]
  by_cases h : P
  · rw [if_pos (hP.2 h), if_pos h, Option.map_some, hws h]
  · rw [if_neg (mt hP.1 h), if_neg h, Option.map_none]

/-- Settles O6: a line of each kind by its commands, what its numbers must fit, and their words. -/
theorem assemblerWords : Obligations.AssemblerWords := by
  refine ⟨rfl, fun ch x => ?_, fun ch id n => ?_, fun sy co => ?_, fun x => ?_, fun e n => ?_,
    fun ch bs => ?_, fun ch id sy co p => ?_, fun e bs => ?_⟩
  · exact assembleWords_eq rfl (by simp [AsmLine.wellFormed])
      fun ⟨hch, hx⟩ => congrArg ([·]) (encode_feed_ofNat hch hx)
  · exact assembleWords_eq rfl (by simp [AsmLine.wellFormed, and_assoc])
      fun ⟨hch, hid, hn⟩ => congrArg ([·]) (encode_send_ofNat hch hid hn)
  · exact assembleWords_eq rfl (by simp [AsmLine.wellFormed])
      fun ⟨hsy, hco⟩ => congrArg ([·]) (encode_sendid_ofNat hsy hco)
  · exact assembleWords_eq rfl (by simp [AsmLine.wellFormed])
      fun hx => congrArg ([·]) (encode_data_ofNat hx)
  · exact assembleWords_eq rfl (by simp [AsmLine.wellFormed])
      fun ⟨he, hn⟩ => congrArg ([·]) (encode_crc_ofNat he hn)
  · exact assembleWords_eq rfl (by simp [AsmLine.wellFormed])
      fun ⟨hch, hbs⟩ => encode_map_feed hch hbs
  · refine assembleWords_eq rfl (by simp [AsmLine.wellFormed, and_assoc, Nat.lt_succ_iff]) ?_
    rintro ⟨hch, hid, hsy, hco, hp, hlen⟩
    rw [sendmsg, List.length_map, List.map_cons, List.map_cons, encode_map_data hp,
      encode_sendid_ofNat hsy hco, encode_send_ofNat hch hid (Nat.lt_succ_of_le hlen)]
  · refine assembleWords_eq rfl (by simp [AsmLine.wellFormed, and_assoc, Nat.lt_succ_iff]) ?_
    rintro ⟨he, hbs, hlen⟩
    rw [crcof, List.length_map, List.map_cons, encode_map_data hbs,
      encode_crc_ofNat he (Nat.lt_succ_of_le hlen)]

/-! ### Running a pseudo-command (R77) -/

theorem execAllIn_cons {cfg : Config} {i : Instr} {s t : State} (is : List Instr)
    (h : execIn cfg i s = .next t) : execAllIn cfg (i :: is) s = execAllIn cfg is t := by
  simp only [execAllIn, h]

theorem execIn_send_idle {cfg : Config} {s : State} (c id n : Byte) (hsq : s.sq = .idle) :
    execIn cfg (.send c id n) s = .next (sendHeader c id n s) := whenIdle_idle hsq

theorem execIn_crc_idle {cfg : Config} {s : State} (e : Byte) (n : Half) (hsq : s.sq = .idle) :
    execIn cfg (.crc e n) s = .next (crcHeader e n s) := whenIdle_idle hsq

theorem execIn_sendid {cfg : Config} {s : State} (sy co : Byte) (hsq : s.sq = .sendId) :
    execIn cfg (.sendid sy co) s = sendIds cfg sy co s := by
  simp only [execIn, sendidIn, hsq]

theorem execIn_data_send {cfg : Config} {s : State} (x : Byte) (hsq : s.sq = .sendData) :
    execIn cfg (.data x) s = sendData cfg x s := by
  simp only [execIn, dataIn, hsq]

theorem execIn_data_crc {cfg : Config} {s : State} (x : Byte) (hsq : s.sq = .crcData) :
    execIn cfg (.data x) s = crcData x s := by
  simp only [execIn, dataIn, hsq]

/-! ### SENDMSG -/

/-- SEND_COMPLETE meets the four clauses of 42_session.md R129. -/
theorem sendEnds_sendResult (cfg : Config) (c id sy co : Byte) (p : List Byte) (s : State) :
    SendEnds cfg c id sy co p s (sendResult cfg c id sy co p s) where
  badChannel hc := by
    simp only [sendResult, if_pos hc]
    rfl
  unknownId hc hreg := by
    simp only [sendResult, if_neg (Nat.not_le.2 hc), hreg]
    rfl
  badLength e hc hreg hl := by
    simp only [sendResult, if_neg (Nat.not_le.2 hc), hreg, if_pos hl]
    rfl
  sent e hc hreg hl := by
    rw [sendResult_sent sy co s hc hreg hl]
    exact ⟨rfl, rfl, rfl, rfl, rfl, by simp, by simp, fun d hd => by simp [hd]⟩

/-- `s` with a SEND open in SEND_DATA that has taken the payload bytes `pay` (10_state.md R27). -/
def State.sending (s : State) (c id n sy co : Byte) (pay : List Byte) : State :=
  (s.setLatches { s.p with
    ch := some c, msgid := some id, plen := some n, sysid := some sy, compid := some co
    pay := some pay }).setSq .sendData

/-- The DATA words of the bytes still to come end an open SEND (42_session.md R128). -/
theorem execAllIn_payload {cfg : Config} {s : State} {c id n sy co x : Byte} {pay rest : List Byte}
    (hn : pay.length + (rest.length + 1) = n.toNat) :
    execAllIn cfg ((x :: rest).map .data) (s.sending c id n sy co pay) =
      .next (sendResult cfg c id sy co (pay ++ x :: rest) s) := by
  induction rest generalizing x pay with
  | nil =>
    refine execAllIn_cons [] ?_
    rw [execIn_data_send x rfl]
    exact sendData_last rfl rfl rfl hn rfl rfl rfl rfl
  | cons y rest ih =>
    rw [List.length_cons] at hn
    have hmore : execIn cfg (.data x) (s.sending c id n sy co pay) =
        .next (s.sending c id n sy co (pay ++ [x])) := by
      rw [execIn_data_send x rfl]
      exact sendData_more rfl rfl rfl (by omega)
    have hlen : (pay ++ [x]).length + (rest.length + 1) = n.toNat := by
      rw [List.length_append, List.length_singleton]
      omega
    rw [List.map_cons, execAllIn_cons _ hmore, ih hlen, List.append_assoc, List.singleton_append]

/-- A whole SENDMSG in IDLE is one SEND_COMPLETE on its payload. -/
theorem execAllIn_sendmsg (cfg : Config) {s : State} (c id sy co : Byte) {p : List Byte}
    (hsq : s.sq = .idle) (hp : p.length ≤ 255) :
    execAllIn cfg (sendmsg c id sy co p) s = .next (sendResult cfg c id sy co p s) := by
  rw [sendmsg, execAllIn_cons _ (execIn_send_idle c id _ hsq)]
  cases p with
  | nil =>
    refine execAllIn_cons [] ?_
    rw [execIn_sendid sy co rfl]
    exact sendIds_last rfl rfl rfl rfl rfl
  | cons x rest =>
    have hn : (BitVec.ofNat 8 (x :: rest).length).toNat = rest.length + 1 :=
      Nat.mod_eq_of_lt (Nat.lt_succ_of_le hp)
    generalize BitVec.ofNat 8 (x :: rest).length = n at hn ⊢
    have hids : execIn cfg (.sendid sy co) (sendHeader c id n s) =
        .next (s.sending c id n sy co []) := by
      rw [execIn_sendid sy co rfl]
      exact sendIds_more rfl rfl (by rintro rfl; simp at hn)
    rw [execAllIn_cons _ hids, execAllIn_payload (by simp [hn]), List.nil_append]

/-- Settles O56: the whole SENDMSG is one SEND_COMPLETE, which meets the clauses of R129. -/
theorem sendmsgEndsOnce : Obligations.SendmsgEndsOnce :=
  fun cfg s c id sy co p hsq hp =>
    ⟨_, execAllIn_sendmsg cfg c id sy co hsq hp, sendEnds_sendResult cfg c id sy co p s⟩

/-! ### CRCOF -/

/-- `s` with a CRC open in CRC_DATA that has `r` bytes to come (10_state.md R27). -/
def State.folding (s : State) (e : Byte) (r acc : Half) : State :=
  (s.setLatches { s.p with seed := some e, acc := some acc, rem := some r }).setSq .crcData

/-- The count of bytes to come never wraps. -/
theorem toNat_sub_one {r : Half} {n : Nat} (h : r.toNat = n + 1) : (r - 1).toNat = n := by
  have hlt := r.isLt
  have hone : (1 : Half).toNat = 1 := rfl
  rw [BitVec.toNat_sub, hone]
  omega

/-- The DATA words of the bytes still to come end an open CRC (42_session.md R128). -/
theorem execAllIn_crcData {cfg : Config} {s : State} {e x : Byte} {r acc : Half} {rest : List Byte}
    (hr : r.toNat = rest.length + 1) :
    execAllIn cfg ((x :: rest).map .data) (s.folding e r acc) =
      .next (crcComplete (crcSeq acc (x :: rest)) e s) := by
  induction rest generalizing x r acc with
  | nil =>
    have hlast : r - 1 = 0 := BitVec.eq_of_toNat_eq (toNat_sub_one hr)
    refine execAllIn_cons [] ?_
    rw [execIn_data_crc x rfl]
    exact crcData_last rfl rfl rfl hlast rfl
  | cons y rest ih =>
    have hrem : (r - 1).toNat = rest.length + 1 := toNat_sub_one hr
    have hmore : execIn cfg (.data x) (s.folding e r acc) =
        .next (s.folding e (r - 1) (crcAcc acc x)) := by
      rw [execIn_data_crc x rfl]
      exact crcData_more rfl rfl rfl fun h0 => by rw [h0] at hrem; cases hrem
    rw [List.map_cons, execAllIn_cons _ hmore, ih hrem]
    rfl

/-- A whole CRCOF in IDLE is one CRC_COMPLETE on its bytes (40_checksum.md R96). -/
theorem execAllIn_crcof (cfg : Config) {s : State} (e : Byte) {bs : List Byte} (hsq : s.sq = .idle)
    (hbs : bs.length ≤ 65535) :
    execAllIn cfg (crcof e bs) s = .next (s.closeCommand.emits [.crc (checksum bs e)]) := by
  have hn : (BitVec.ofNat 16 bs.length).toNat = bs.length :=
    Nat.mod_eq_of_lt (Nat.lt_succ_of_le hbs)
  rw [crcof, execAllIn_cons _ (execIn_crc_idle e _ hsq)]
  rcases crcHeader_cases e (BitVec.ofNat 16 bs.length) s with ⟨h0, h⟩ | ⟨hne, h⟩ <;> rw [h]
  · obtain rfl : bs = [] :=
      List.length_eq_zero_iff.1 (hn.symm.trans (congrArg BitVec.toNat h0))
    rfl
  · cases bs with
    | nil => exact absurd rfl hne
    | cons x rest => exact execAllIn_crcData hn

/-- Settles O57: the whole CRCOF is one CRC_COMPLETE, and the sequencer was closed before it. -/
theorem crcofEmitsChecksum : Obligations.CrcofEmitsChecksum := by
  intro cfg s e bs hsq hbs
  rw [execAllIn_crcof cfg e hsq hbs, State.closeCommand, ← hsq]
  rfl

/-! ### Event words (R80 to R86) -/

section
variable (kind code : Nibble) (ch : Byte) (info : Half)

@[simp] theorem fieldOp_eventHeader : fieldOp (eventHeader kind code ch info) = kind := by
  apply BitVec.eq_of_getElem_eq
  intro i hi
  interval_cases i <;> simp [fieldOp, eventHeader]

@[simp] theorem fieldRsv_eventHeader : fieldRsv (eventHeader kind code ch info) = code := by
  apply BitVec.eq_of_getElem_eq
  intro i hi
  interval_cases i <;> simp [fieldRsv, eventHeader]

@[simp] theorem fieldA_eventHeader : fieldA (eventHeader kind code ch info) = ch := by
  apply BitVec.eq_of_getElem_eq
  intro i hi
  interval_cases i <;> simp [fieldA, eventHeader]

@[simp] theorem fieldN_eventHeader : fieldN (eventHeader kind code ch info) = info := by
  apply BitVec.eq_of_getElem_eq
  intro i hi
  interval_cases i <;> simp [fieldN, eventHeader]

end

theorem fieldOp_byteWord (x : Byte) : fieldOp (byteWord x) = 0xB := by
  apply BitVec.eq_of_getElem_eq
  intro i hi
  interval_cases i <;> simp [fieldOp, byteWord]

theorem zeros_byteWord (x : Byte) : (byteWord x).extractLsb' 8 20 = 0 := by
  apply BitVec.eq_of_getElem_eq
  intro i hi
  interval_cases i <;> simp [byteWord]

@[simp] theorem fieldC_byteWord (x : Byte) : fieldC (byteWord x) = x := by
  apply BitVec.eq_of_getElem_eq
  intro i hi
  interval_cases i <;> simp [fieldC, byteWord]

/-- Settles O7: the fields of the two kinds of word; the rest is the listing of words and codes. -/
theorem eventWordFields : Obligations.EventWordFields :=
  ⟨fun k c ch i => ⟨fieldOp_eventHeader k c ch i, fieldRsv_eventHeader k c ch i,
      fieldA_eventHeader k c ch i, fieldN_eventHeader k c ch i⟩,
    fun x => ⟨fieldOp_byteWord x, zeros_byteWord x, fieldC_byteWord x⟩,
    fun _ _ => rfl, fun _ _ => rfl, fun _ _ _ => rfl, fun _ => rfl, fun _ _ _ => rfl,
    by decide, by decide⟩

/-! ### Reading a stream of event words -/

/-- KIND of an event's header (R81 to R85). -/
def Event.kind : Event → Nibble
  | .decoded _ _ => 0x1
  | .discard _ _ _ => 0x2
  | .sent _ _ => 0x3
  | .crc _ => 0x4
  | .error _ _ _ => 0xE

/-- CODE of an event's header. -/
def Event.code : Event → Nibble
  | .discard _ r _ => discardCode r
  | .error code _ _ => errorCode code
  | .decoded _ _ | .sent _ _ | .crc _ => 0x0

/-- CH of an event's header. -/
def Event.ch : Event → Byte
  | .decoded ch _ | .discard ch _ _ | .sent ch _ | .error _ ch _ => ch
  | .crc _ => 0x00

/-- The frame behind an event's header, if it carries one. -/
def Event.frame : Event → List Byte
  | .decoded _ f | .sent _ f => f
  | .discard _ _ _ | .crc _ | .error _ _ _ => []

/-- INFO of an event's header. -/
def Event.info : Event → Half
  | .decoded _ f | .sent _ f => BitVec.ofNat 16 f.length
  | .discard _ _ x => x.setWidth 16
  | .crc v => v
  | .error _ _ info => info

/-- An event leaves as its header and the BYTE words of its frame. -/
theorem eventWords_eq (e : Event) :
    eventWords e = eventHeader e.kind e.code e.ch e.info :: e.frame.map byteWord := by
  cases e <;> rfl

theorem eventHeader_inj {k k' c c' : Nibble} {ch ch' : Byte} {i i' : Half}
    (h : eventHeader k c ch i = eventHeader k' c' ch' i') : k = k' ∧ c = c' ∧ ch = ch' ∧ i = i' :=
  ⟨by simpa using congrArg fieldOp h, by simpa using congrArg fieldRsv h,
    by simpa using congrArg fieldA h, by simpa using congrArg fieldN h⟩

theorem byteWord_injective : Function.Injective byteWord :=
  Function.LeftInverse.injective fieldC_byteWord

theorem discardCode_injective : Function.Injective discardCode := by
  intro r r'
  cases r <;> cases r' <;> decide

theorem errorCode_injective : Function.Injective errorCode := by
  intro c c'
  cases c <;> cases c' <;> decide

theorem setWidth_injective : Function.Injective (BitVec.setWidth 16 : Byte → Half) :=
  Function.LeftInverse.injective (g := lowByte) fun x => by simp [lowByte]

/-- The header and the frame determine the event. -/
theorem Event.eq_of_fields {e e' : Event} (hk : e.kind = e'.kind) (hc : e.code = e'.code)
    (hch : e.ch = e'.ch) (hi : e.info = e'.info) (hf : e.frame = e'.frame) : e = e' := by
  cases e <;> cases e' <;> simp [Event.kind] at hk
  case decoded.decoded => exact congrArg₂ Event.decoded hch hf
  case sent.sent => exact congrArg₂ Event.sent hch hf
  case crc.crc => exact congrArg Event.crc hi
  case discard.discard c r x c' r' x' =>
    obtain rfl : c = c' := hch
    exact congrArg₂ (Event.discard c) (discardCode_injective hc) (setWidth_injective hi)
  case error.error code c i code' c' i' =>
    obtain rfl := errorCode_injective hc
    exact congrArg₂ (Event.error code) hch hi

/-- The header of a fitting event tells how many BYTE words follow it (R81 to R86). -/
theorem Event.frame_length {e : Event} (he : e.fits) :
    e.frame.length = if e.kind = 0x1 ∨ e.kind = 0x3 then e.info.toNat else 0 := by
  cases e with
  | decoded ch f | sent ch f =>
    have hf : f.length ≤ 263 := he
    exact (Nat.mod_eq_of_lt (Nat.lt_of_le_of_lt hf (by decide))).symm
  | discard | crc | error => rfl

/-- The words of an event tell where it ends. -/
theorem eventWords_append_inj {e e' : Event} (he : e.fits) (he' : e'.fits) {ws ws' : List Word}
    (h : eventWords e ++ ws = eventWords e' ++ ws') : e = e' ∧ ws = ws' := by
  rw [eventWords_eq, eventWords_eq, List.cons_append, List.cons_append] at h
  obtain ⟨hhead, hrest⟩ := List.cons_eq_cons.1 h
  obtain ⟨hk, hc, hch, hi⟩ := eventHeader_inj hhead
  have hlen : e.frame.length = e'.frame.length := by
    rw [Event.frame_length he, Event.frame_length he', hk, hi]
  obtain ⟨hf, hws⟩ := List.append_inj hrest (by simpa using hlen)
  exact ⟨Event.eq_of_fields hk hc hch hi (List.map_injective_iff.2 byteWord_injective hf), hws⟩

/-- Every event leaves at least its header. -/
theorem streamWords_cons_ne_nil (e : Event) (es : List Event) : streamWords (e :: es) ≠ [] := by
  simp [streamWords, eventWords_eq]

/-- Settles O8: the first event is read off the words, and what follows is the rest of them. -/
theorem eventStreamDetermined : Obligations.EventStreamDetermined := by
  intro es
  induction es with
  | nil =>
    intro fs _ _ h
    cases fs with
    | nil => rfl
    | cons f fs => exact absurd h.symm (streamWords_cons_ne_nil f fs)
  | cons e es ih =>
    intro fs hes hfs h
    cases fs with
    | nil => exact absurd h (streamWords_cons_ne_nil e es)
    | cons f fs =>
      obtain ⟨he, hes⟩ := List.forall_mem_cons.1 hes
      obtain ⟨hf, hfs⟩ := List.forall_mem_cons.1 hfs
      obtain ⟨heq, hrest⟩ := eventWords_append_inj he hf h
      rw [heq, ih fs hes hfs hrest]

end Sys2Proof.Machine

/-! SUPPORT. The checksum unit (40_checksum.md): the two forms of its one-byte step, the fold, and
the CRC command. -/

namespace Sys2Proof.Machine

/-! ### The bit-serial step (R90) -/

/-- One bit shifts, and adds the polynomial for a 1 shifted out. -/
theorem crcBit_eq (c : Half) : crcBit c = (c >>> 1) ^^^ (if c.getLsbD 0 then 0x8408 else 0) := by
  unfold crcBit
  split_ifs
  · rfl
  · exact BitVec.xor_zero.symm

/-- One bit of the bit-serial form is linear over exclusive-or. -/
theorem crcBit_xor (c d : Half) : crcBit (c ^^^ d) = crcBit c ^^^ crcBit d := by
  have hpoly : (if (c ^^^ d).getLsbD 0 then 0x8408 else 0) =
      (if c.getLsbD 0 then 0x8408 else 0) ^^^ (if d.getLsbD 0 then (0x8408 : Half) else 0) := by
    rw [BitVec.getLsbD_xor]
    cases c.getLsbD 0 <;> cases d.getLsbD 0 <;> rfl
  rw [crcBit_eq, crcBit_eq, crcBit_eq, hpoly, BitVec.ushiftRight_xor_distrib]
  ac_rfl

theorem repeat_crcBit_xor (n : Nat) (c d : Half) :
    Nat.repeat crcBit n (c ^^^ d) = Nat.repeat crcBit n c ^^^ Nat.repeat crcBit n d := by
  induction n with
  | zero => rfl
  | succ n ih => simp only [Nat.repeat, ih, crcBit_xor]

theorem byteToHalf_xor (x y : Byte) : byteToHalf (x ^^^ y) = byteToHalf x ^^^ byteToHalf y :=
  BitVec.setWidth_xor

/-- While the low bits are 0, the bit-serial form only shifts. -/
theorem repeat_crcBit_of_low_zero {c : Half} {n : Nat} (h : ∀ i < n, c.getLsbD i = false) :
    Nat.repeat crcBit n c = c >>> n := by
  induction n with
  | zero => simp [Nat.repeat]
  | succ n ih =>
    have hn : (c >>> n).getLsbD 0 = false := by simpa using h n (Nat.lt_succ_self n)
    rw [Nat.repeat, ih fun i hi => h i (Nat.lt_succ_of_lt hi), crcBit, hn, BitVec.shiftRight_add]
    rfl

/-- On a zero accumulator the two forms agree: the 256 entries of the CRC table. -/
theorem crcAccSerial_zero : ∀ x : Byte, Nat.repeat crcBit 8 (byteToHalf x) = crcAcc 0 x := by
  decide

/-- The table form shifts the high byte down and folds the rest into a zero accumulator. -/
theorem crcAcc_eq (c : Half) (x : Byte) :
    crcAcc c x = (c >>> 8) ^^^ crcAcc 0 (x ^^^ lowByte c) := by
  simp [crcAcc, lowByte, BitVec.xor_assoc]

/-- So does the bit-serial form, by linearity: the accumulator is its high byte and its low byte. -/
theorem crcAccSerial_eq (c : Half) (x : Byte) :
    crcAccSerial c x = (c >>> 8) ^^^ Nat.repeat crcBit 8 (byteToHalf (x ^^^ lowByte c)) := by
  have hlow : ∀ i < 8, (c ^^^ byteToHalf (lowByte c)).getLsbD i = false := by
    intro i hi
    simp [byteToHalf, lowByte, hi, show i < 16 by omega]
  have hhigh : (c ^^^ byteToHalf (lowByte c)) >>> 8 = c >>> 8 := by
    ext i hi
    simp [byteToHalf, lowByte]
  have hsplit : c ^^^ byteToHalf x =
      (c ^^^ byteToHalf (lowByte c)) ^^^ byteToHalf (x ^^^ lowByte c) := by
    rw [byteToHalf_xor, BitVec.xor_comm (byteToHalf x), BitVec.xor_assoc,
      ← BitVec.xor_assoc (byteToHalf (lowByte c)), BitVec.xor_self, BitVec.zero_xor]
  rw [crcAccSerial, hsplit, repeat_crcBit_xor, repeat_crcBit_of_low_zero hlow, hhigh]

/-- Settles O9: both forms shift the high byte down, and agree on what the low byte adds. -/
theorem checksumFormsAgree : Obligations.ChecksumFormsAgree := by
  intro c x
  rw [crcAcc_eq, crcAccSerial_eq, crcAccSerial_zero]

/-! ### The fold and the checksum (R91, R92) -/

theorem crcSeq_append (c : Half) (s t : List Byte) :
    crcSeq c (s ++ t) = crcSeq (crcSeq c s) t := List.foldl_append

/-- Settles O10: the fold is a left fold, and the bytes 0 and 1 do not commute. -/
theorem checksumFoldSplits : Obligations.ChecksumFoldSplits :=
  ⟨fun _ => rfl, fun _ _ _ => rfl, crcSeq_append, 0, 0, 1, by decide⟩

/-- Settles O11: the definition of R92, and its worked example computed. -/
theorem checksumSeedsLast : Obligations.ChecksumSeedsLast := ⟨fun _ _ => rfl, by decide⟩

/-! ### The CRC command (R95, R96) -/

/-- Settles O40: the header in IDLE is `crcHeader`, which completes or opens the command. -/
theorem crcHeaderOpensOrCompletes : Obligations.CrcHeaderOpensOrCompletes := by
  intro s e n hsq
  rw [← execIn_chip, execIn_crc_idle e n hsq]
  rcases crcHeader_cases e n s with ⟨h0, h⟩ | ⟨hne, h⟩ <;> rw [h]
  · exact ⟨fun hne => absurd h0 hne, fun _ => rfl⟩
  · exact ⟨fun _ => rfl, fun h0 => absurd h0 hne⟩

/-- Settles O41: the count after the byte decides whether the command completes. -/
theorem dataFoldsChecksum : Obligations.DataFoldsChecksum := by
  intro s x e a r hsq hacc hrem hseed
  rw [← execIn_chip, execIn_data_crc x hsq]
  constructor
  · intro hr
    have hmore : r - 1 ≠ 0 := by
      intro h0
      rw [sub_eq_zero.1 h0] at hr
      exact absurd hr (by decide)
    rw [crcData_more hsq hacc hrem hmore]
    rfl
  · intro hr
    rw [crcData_last hsq hacc hrem (sub_eq_zero.2 hr) hseed]
    rfl

/-! ### The frame of NOP, SEND and CRC -/

/-- NOP, SEND and CRC reach neither the channel file nor FAULT, whether they run or abort an open
command. -/
theorem Quiet.of_header {cfg : Config} {i : Instr} {s t : State} (h : Effect cfg s i t)
    (hi : i = .nop ∨ (∃ ch id n, i = .send ch id n) ∨ ∃ e n, i = .crc e n) : Quiet cfg s t := by
  cases h with
  | nop => exact .refl cfg s
  | send => exact ((Quiet.refl cfg s).setLatches _).setSq _
  | crc e n => exact .crcHeader cfg e n s
  | aborted _ _ _ _ hopen => exact .abortWith cfg hopen
  | feed | strayId | strayData | ids | idsLast | payload | payloadLast | fold | foldLast =>
    simp at hi

/-- Settles O43: the commands are quiet, and no command touches the inputs. -/
theorem headerFrame : Obligations.HeaderFrame := by
  intro s t i hi h
  have heff := effect_of_exec h
  have hquiet := Quiet.of_header heff hi
  obtain ⟨es, hout, -⟩ := hquiet.out
  exact ⟨hquiet.buf, hquiet.txseq, hquiet.fault, effect_input heff, es, hout.symm⟩

end Sys2Proof.Machine

/-! SUPPORT. The frame codec (41_frame_codec.md): when a decode attempt needs more bytes, how much of
the buffer it reads, and the bytes of an encoded frame. -/

namespace Sys2Proof.Machine

/-! ### When more bytes are needed (R101, R102) -/

/-- More bytes are needed exactly for an empty buffer, and for a marker short of a header or of the
frame it claims. -/
theorem tryDecode_eq_need_iff {cfg : Config} {b : List Byte} :
    tryDecode cfg b = .need ↔
      b = [] ∨ peek b 0 = marker ∧ (b.length < 6 ∨ b.length < 8 + frameL b) := by
  rcases tryDecode_cases cfg b with ⟨h0, h⟩ | ⟨h0, hm, h⟩ | ⟨hm, hs, h⟩ | ⟨-, hl, h⟩
  · simp [h0]
  · simp [h, h0, hm]
  · simp [h, hm, hs]
  · have h0 : b ≠ [] := by
      rintro rfl
      simp at hl
    have hs : ¬ (b.length < 6 ∨ b.length < 8 + frameL b) := by omega
    simp [h, wholeFrame_ne_need, h0, hs]

/-- A buffer as long as the frame it would claim is decided. -/
theorem tryDecode_ne_need_of_length {cfg : Config} {b : List Byte} (h : 8 + frameL b ≤ b.length) :
    tryDecode cfg b ≠ .need := by
  rw [Ne, tryDecode_eq_need_iff]
  rintro (rfl | ⟨-, hs⟩)
  · simp at h
  · omega

/-! ### Prefix stability and the read window (R104, R105) -/

/-- An answer read only bytes that are there, so it stands when more follow. -/
theorem tryDecode_append {cfg : Config} {b : List Byte} (t : List Byte)
    (h : tryDecode cfg b ≠ .need) : tryDecode cfg (b ++ t) = tryDecode cfg b := by
  rcases tryDecode_cases cfg b with ⟨-, hb⟩ | ⟨h0, hm, hb⟩ | ⟨-, -, hb⟩ | ⟨hm, hl, hb⟩
  · exact absurd hb h
  · have hhead : peek (b ++ t) 0 = peek b 0 := peek_append_left t (List.length_pos_iff.2 h0)
    rw [hb, tryDecode_notMarker (List.append_ne_nil_of_left_ne_nil h0 t) (hhead ▸ hm)]
  · exact absurd hb h
  · have hhead : peek (b ++ t) 0 = peek b 0 := peek_append_left t (by omega)
    have hclaim : frameL (b ++ t) = frameL b := frameL_append_left t (by omega)
    rw [hb, tryDecode_whole (hhead.trans hm) (by rw [hclaim, List.length_append]; omega),
      wholeFrame_append_left cfg t hl]

/-- Settles O15: a buffer that needs more bytes is decided at the latest with 263 more, the length of
the longest frame. -/
theorem prefixStability : Obligations.PrefixStability := by
  refine ⟨fun cfg b t => tryDecode_append t, fun cfg b _ _ => ⟨List.replicate 263 0, ?_, ?_⟩⟩
  · exact mt (List.replicate_eq_nil_iff _).1 (by decide)
  · have hclaim := frameL_lt (b ++ List.replicate 263 0)
    exact tryDecode_ne_need_of_length (by rw [List.length_append, List.length_replicate]; omega)

theorem peek_take (b : List Byte) {i n : Nat} (h : i < n) : peek (b.take n) i = peek b i := by
  simp [peek, h]

/-- A decided head of the buffer decides the buffer. -/
theorem tryDecode_take {cfg : Config} {b : List Byte} {n : Nat}
    (h : tryDecode cfg (b.take n) ≠ .need) : tryDecode cfg (b.take n) = tryDecode cfg b := by
  rw [← tryDecode_append (b.drop n) h, List.take_append_drop]

/-- Settles O14: the bytes in the window decide, unless they are the whole buffer. -/
theorem tryDecodeReadWindow : Obligations.TryDecodeReadWindow := by
  refine fun cfg b => ⟨?_, fun hm => ?_⟩
  · rcases Nat.le_total b.length (8 + frameL b) with hle | hle
    · rw [List.take_of_length_le hle]
    · have hclaim : frameL (b.take (8 + frameL b)) = frameL b :=
        congrArg BitVec.toNat (peek_take b (by omega))
      exact tryDecode_take (tryDecode_ne_need_of_length (by
        rw [hclaim, List.length_take, min_eq_left hle]))
  · cases b with
    | nil => rfl
    | cons x b =>
      rw [tryDecode_notMarker (List.cons_ne_nil x b) hm]
      exact tryDecode_notMarker (List.cons_ne_nil x []) hm

/-! ### The bytes of a frame (R101, R106) -/

theorem lowByte_eq_extractLsb' (v : Half) : lowByte v = v.extractLsb' 0 8 := by
  rw [lowByte, BitVec.setWidth_eq_extractLsb' (by decide)]

theorem highByte_eq_extractLsb' (v : Half) : highByte v = v.extractLsb' 8 8 := by
  ext i
  simp [highByte]

section
variable (id sy co seq : Byte) (p : List Byte)

/-- The checksum of an encoded frame covers LEN to the last payload byte (30_encoding.md R64). -/
theorem frameChecksum_eq (seed : Byte) : frameChecksum id sy co seq p seed =
    checksum (BitVec.ofNat 8 p.length :: seq :: sy :: co :: id :: p) seed := by
  simp [frameChecksum, frameBody, slice, Nat.add_comm 5]

/-! A buffer that starts with the bytes of a frame before its checksum: what `wholeFrame` reads. -/

variable (t : List Byte)

@[simp] theorem peek_frameBody_len :
    peek (frameBody id sy co seq p ++ t) 1 = BitVec.ofNat 8 p.length := rfl

@[simp] theorem peek_frameBody_msgid : peek (frameBody id sy co seq p ++ t) 5 = id := rfl

theorem slice_frameBody_payload :
    slice (frameBody id sy co seq p ++ t) 6 (5 + p.length) = p := by
  rw [slice_append_left t (by simp)]
  simp [slice, frameBody, Nat.add_comm 5]

variable {p} (hp : p.length ≤ 255)
include hp

theorem frameL_frameBody : frameL (frameBody id sy co seq p ++ t) = p.length := by
  rw [frameL, peek_frameBody_len, BitVec.toNat_ofNat]
  omega

theorem crcFrame_frameBody (seed : Byte) :
    crcFrame (frameBody id sy co seq p ++ t) seed =
      checksum (BitVec.ofNat 8 p.length :: seq :: sy :: co :: id :: p) seed := by
  rw [crcFrame, frameL_frameBody id sy co seq t hp, slice_append_left t (by simp),
    ← frameChecksum_eq, frameChecksum]

variable (lo hi : Byte)

theorem rxCrc_frameBody :
    rxCrc (frameBody id sy co seq p ++ lo :: hi :: t) = halfOfBytes lo hi := by
  rw [rxCrc, frameL_frameBody id sy co seq _ hp]
  simp [peek, List.getElem?_append_right, Nat.add_sub_add_right]

/-- The checks of a whole frame, in the fields it is written in (R101). -/
theorem wholeFrame_frameBody (cfg : Config) :
    wholeFrame cfg (frameBody id sy co seq p ++ lo :: hi :: t) =
      match cfg.reg id with
      | none => .invalid .unknownId
      | some e =>
        if e.len ≠ BitVec.ofNat 8 p.length then .invalid .lenMismatch
        else if checksum (BitVec.ofNat 8 p.length :: seq :: sy :: co :: id :: p) e.seed ≠
            halfOfBytes lo hi then .invalid .crcMismatch
        else if cfg.unpackOk id p = false then .invalid .unpackFail
        else .decoded (8 + p.length) (frameBody id sy co seq p ++ [lo, hi]) := by
  have htake : (frameBody id sy co seq p ++ lo :: hi :: t).take (8 + p.length) =
      frameBody id sy co seq p ++ [lo, hi] := by
    have hframe : frameBody id sy co seq p ++ lo :: hi :: t =
        frameBody id sy co seq p ++ [lo, hi] ++ t := by simp
    rw [hframe, List.take_left' (by simp; omega)]
  cases hr : cfg.reg id <;>
    simp only [wholeFrame, peek_frameBody_msgid, peek_frameBody_len,
      frameL_frameBody id sy co seq _ hp, crcFrame_frameBody id sy co seq _ hp,
      rxCrc_frameBody id sy co seq t hp, slice_frameBody_payload, htake, hr]

end

/-- Settles O12: a buffer short of a header or of its claimed frame needs more bytes, and one with
the bytes of a frame at its head is decided by that frame's fields. -/
theorem tryDecodeChecksInOrder : Obligations.TryDecodeChecksInOrder := by
  refine fun cfg => ⟨tryDecode_nil cfg, fun x b hx => tryDecode_notMarker (List.cons_ne_nil x b) hx,
    fun b hb => tryDecode_short rfl (.inl (Nat.succ_lt_succ hb)),
    fun l seq sy co id b hb => tryDecode_short rfl (.inr ?_),
    fun l seq sy co id lo hi p t hlen => ?_⟩
  · have hclaim : frameL (0xFE :: l :: seq :: sy :: co :: id :: b) = l.toNat := rfl
    simp only [hclaim, List.length_cons]
    omega
  · obtain rfl : l = BitVec.ofNat 8 p.length := by
      rw [hlen, BitVec.ofNat_toNat, BitVec.setWidth_eq]
    have hp : p.length ≤ 255 := by omega
    have hwhole : tryDecode cfg (frameBody id sy co seq p ++ lo :: hi :: t) =
        wholeFrame cfg (frameBody id sy co seq p ++ lo :: hi :: t) :=
      tryDecode_whole rfl (by simp [frameL_frameBody id sy co seq _ hp]; omega)
    rw [← hlen]
    exact hwhole.trans (wholeFrame_frameBody id sy co seq t hp lo hi cfg)

/-- Settles O17: the encoder's frames are valid, and a valid frame is accepted whatever follows. -/
theorem decodeOfEncodedFrame : Obligations.DecodeOfEncodedFrame := by
  intro cfg id sy co seq p e t hreg hlen hunpack
  exact ⟨tryDecode_of_validFrame (validFrame_encodeFrame sy co seq hreg hlen.symm hunpack) t,
    rfl, rfl, rfl, rfl, slice_encodeFrame_payload id sy co seq p e.seed⟩

/-- Settles O16: the bytes before the checksum, and the checksum's two bytes. -/
theorem encodedFrameLayout : Obligations.EncodedFrameLayout := by
  refine fun id sy co seq p seed _ => ⟨?_, encodeFrame_length id sy co seq p seed⟩
  rw [encodeFrame_eq, frameChecksum_eq, lowByte_eq_extractLsb', highByte_eq_extractLsb']
  rfl

/-- Settles O18: the checksum is the worked example of 40_checksum.md R92, sent low byte first. -/
theorem heartbeatFrame : Obligations.HeartbeatFrame := by
  have hcrc : frameChecksum 0 0xFF 0 0 [0, 0, 0, 0, 6, 8, 0, 0, 3] 0x32 = 0xDFA1 :=
    (frameChecksum_eq ..).trans checksumSeedsLast.2
  rw [Obligations.HeartbeatFrame, encodeFrame_eq, hcrc]
  rfl

end Sys2Proof.Machine

/-! SUPPORT. The session (42_session.md): the drain loop and feeding in chunks, the frames sent and
their numbers, and what each word does in each sequencer state. -/

namespace Sys2Proof.Machine

/-! ### The drain loop (R124, R125) -/

/-- The loop has one end: each round is decided by the buffer. -/
theorem DrainRuns.unique {cfg : Config} {c : Byte} {b b₁ b₂ : List Byte} {es₁ es₂ : List Event}
    (h₁ : DrainRuns cfg c b es₁ b₁) (h₂ : DrainRuns cfg c b es₂ b₂) : es₁ = es₂ ∧ b₁ = b₂ := by
  induction h₁ generalizing es₂ with
  | empty =>
    cases h₂ with
    | empty => exact ⟨rfl, rfl⟩
    | need hb => exact absurd rfl hb
    | decoded hb => exact absurd rfl hb
  | need hb hd =>
    cases h₂ with
    | empty => exact absurd rfl hb
    | need => exact ⟨rfl, rfl⟩
    | invalid hd' => simp [hd] at hd'
    | decoded _ hd' => simp [hd] at hd'
  | invalid hd _ ih =>
    cases h₂ with
    | need _ hd' => simp [hd] at hd'
    | invalid hd' h₂ =>
      cases hd.symm.trans hd'
      obtain ⟨rfl, rfl⟩ := ih h₂
      exact ⟨rfl, rfl⟩
    | decoded _ hd' => simp [hd] at hd'
  | decoded hb hd _ ih =>
    cases h₂ with
    | empty => exact absurd rfl hb
    | need _ hd' => simp [hd] at hd'
    | invalid hd' => simp [hd] at hd'
    | decoded _ hd' h₂ =>
      cases hd.symm.trans hd'
      obtain ⟨rfl, rfl⟩ := ih h₂
      exact ⟨rfl, rfl⟩

/-- A run of the loop is what `drain` answers. -/
theorem DrainRuns.drain_eq {cfg : Config} {c : Byte} {b b' : List Byte} {es : List Event}
    (h : DrainRuns cfg c b es b') : drain cfg c b = (es, b') := by
  obtain ⟨hes, hb⟩ := (drain_runs cfg c b).unique h
  exact Prod.ext hes hb

/-- Every round that goes on emits one event and drops at least one byte (R125). -/
theorem DrainRuns.length_le {cfg : Config} {c : Byte} {b b' : List Byte} {es : List Event}
    (h : DrainRuns cfg c b es b') : es.length + b'.length ≤ b.length := by
  induction h with
  | empty => simp
  | need => simp
  | invalid _ _ ih =>
    simp only [List.length_cons]
    omega
  | decoded _ hd _ ih =>
    obtain ⟨hn, hle⟩ := tryDecode_decoded_length hd
    simp only [List.length_cons, List.length_drop] at ih ⊢
    omega

/-- Settles O19: `drain` is a run of the loop, and there is no other. -/
theorem drainRunsToQuiescence : Obligations.DrainRunsToQuiescence := by
  intro cfg c b
  have hrun := drain_runs cfg c b
  exact ⟨hrun, fun _ _ h => h.unique hrun, hrun.length_le, hrun.quiescent⟩

/-! ### Feeding in chunks (R132) -/

/-- A round decided on a buffer is decided alike with more bytes behind it (41_frame_codec.md R105),
so a run goes on from what another left. -/
theorem DrainRuns.append {cfg : Config} {c : Byte} {b b' b'' t : List Byte} {es es' : List Event}
    (h : DrainRuns cfg c b es b') (h' : DrainRuns cfg c (b' ++ t) es' b'') :
    DrainRuns cfg c (b ++ t) (es ++ es') b'' := by
  induction h with
  | empty => exact h'
  | need => exact h'
  | invalid hd _ ih =>
    exact .invalid ((tryDecode_append t (by simp [hd])).trans hd) (ih h')
  | decoded hb hd _ ih =>
    obtain ⟨-, hle⟩ := tryDecode_decoded_length hd
    refine .decoded (List.append_ne_nil_of_left_ne_nil hb t)
      ((tryDecode_append t (by simp [hd])).trans hd) ?_
    rw [List.drop_append_of_le_length hle]
    exact ih h'

/-- Draining, then draining again with more bytes behind what stayed, is draining it all at once. -/
theorem drain_append (cfg : Config) (c : Byte) (b t : List Byte) :
    drain cfg c (b ++ t) =
      ((drain cfg c b).1 ++ (drain cfg c ((drain cfg c b).2 ++ t)).1,
        (drain cfg c ((drain cfg c b).2 ++ t)).2) :=
  ((drain_runs cfg c b).append (drain_runs cfg c _)).drain_eq

/-- A quiescent buffer is left as it is, with no event (10_state.md R25). -/
theorem drain_quiescent {cfg : Config} (c : Byte) {b : List Byte} (h : Quiescent cfg b) :
    drain cfg c b = ([], b) := by
  by_cases hb : b = []
  · subst hb
    rfl
  · exact (DrainRuns.need hb (h.resolve_left hb)).drain_eq

/-- A valid frame is drained as its one DECODED event (30_encoding.md R65). -/
theorem drain_validFrame {cfg : Config} (c : Byte) {f : List Byte} (hf : ValidFrame cfg f) :
    drain cfg c f = ([.decoded c f], []) := by
  have hd : tryDecode cfg f = .decoded f.length f := by simpa using tryDecode_of_validFrame hf []
  have hne : f ≠ [] := by
    rintro rfl
    simp at hd
  refine (DrainRuns.decoded hne hd ?_).drain_eq
  rw [List.drop_length]
  exact .empty

theorem drainInto_drainInto (cfg : Config) (c : Byte) (b t : List Byte) (s : State) :
    drainInto cfg c ((drain cfg c b).2 ++ t) (drainInto cfg c b s) = drainInto cfg c (b ++ t) s := by
  simp only [drainInto, State.emits_setBuf, State.setBuf_setBuf, State.emits_emits,
    drain_append cfg c b t]

/-- Draining a quiescent buffer only stores it. -/
theorem drainInto_quiescent {cfg : Config} (c : Byte) {b : List Byte} (s : State)
    (h : Quiescent cfg b) : drainInto cfg c b s = s.setBuf c b := by
  rw [drainInto, drain_quiescent c h, State.emits_nil]

/-- Settles O55, by induction on the chunk: what the first FEED leaves is drained further together
with the rest. -/
theorem chunkEquivalence : Obligations.ChunkEquivalence := by
  intro cfg s c bs hsq hc hq
  induction bs generalizing s with
  | nil =>
    rw [feedChunk, List.append_nil, drainInto_quiescent c s hq, State.setBuf_buf_self]
    rfl
  | cons x bs ih =>
    have hq' : Quiescent cfg ((drainInto cfg c (s.buf c ++ [x]) s).buf c) := by
      rw [drainInto_buf_same]
      exact (drain_runs cfg c _).quiescent
    rw [feeds, List.map_cons, execAllIn_cons _ (execIn_feed_quiescent x hsq hc hq)]
    refine (ih (s := drainInto cfg c (s.buf c ++ [x]) s) hsq hq').trans ?_
    rw [feedChunk, drainInto_buf_same, drainInto_drainInto, List.append_assoc, feedChunk,
      List.singleton_append]

/-! ### Loopback (R134) -/

/-- The head of a valid frame, short of the whole, needs more bytes (41_frame_codec.md R105). -/
theorem ValidFrame.quiescent_take {cfg : Config} {f : List Byte} (hf : ValidFrame cfg f) {k : Nat}
    (hk : k < f.length) : Quiescent cfg (f.take k) := by
  refine .inr ?_
  by_contra hneed
  have hd : tryDecode cfg (f.take k) = .decoded f.length f := by
    rw [tryDecode_take hneed]
    simpa using tryDecode_of_validFrame hf []
  obtain ⟨-, hle⟩ := tryDecode_decoded_length hd
  rw [List.length_take] at hle
  omega

/-- A legal SENT event whose payload unpacks carries a valid frame (30_encoding.md R65). -/
theorem EventLegal.validFrame {cfg : Config} {c : Byte} {f : List Byte}
    (h : EventLegal cfg (.sent c f))
    (hunpack : cfg.unpackOk (peek f 5) (slice f 6 (5 + frameL f)) = true) : ValidFrame cfg f := by
  obtain ⟨-, hm, hlen, e, hreg, hl, hcrc⟩ := h
  exact ⟨hm, hlen, e, hreg, hl, hcrc, hunpack⟩

/-- The frame a SEND ends with is legal, whatever the latches held (R129). -/
theorem sendResult_sent_legal {cfg : Config} {c d id sy co : Byte} {p f : List Byte} {s : State}
    (h : (sendResult cfg c id sy co p s).out = s.out ++ [.sent d f]) :
    EventLegal cfg (.sent d f) := by
  rcases sendResult_cases cfg c id sy co p s with ⟨-, h'⟩ | ⟨-, -, h'⟩ | ⟨e, -, -, -, h'⟩ |
    ⟨e, hc, hreg, hl, h'⟩ <;> rw [h'] at h
  · simp at h
  · simp at h
  · simp at h
  · obtain ⟨rfl, rfl⟩ : c = d ∧ encodeFrame id sy co (s.txseq c) p e.seed = f := by simpa using h
    exact .of_encodeFrame sy co (s.txseq c) hc hreg hl

/-- Whatever command emits a SENT event, the event is legal. -/
theorem effect_sent_legal {cfg : Config} {i : Instr} {s t : State} {c : Byte} {f : List Byte}
    (h : Effect cfg s i t) (hout : t.out = s.out ++ [.sent c f]) : EventLegal cfg (.sent c f) := by
  have hmem {es : List Event} (hes : t.out = s.out ++ es) : .sent c f ∈ es := by
    simp [List.append_cancel_left (hes.symm.trans hout)]
  rcases effect_kinds h with ⟨d, x, -, -, rfl⟩ | ⟨d, id, sy, co, p, -, rfl⟩ | hquiet
  · obtain ⟨es, hes, hlegal⟩ := feed_out cfg d x s
    exact hlegal _ (hmem hes)
  · exact sendResult_sent_legal hout
  · obtain ⟨es, hes, hlegal⟩ := hquiet.out
    exact hlegal _ (hmem hes)

/-- Settles O58: the frame is valid, any part short of it is quiescent, and the whole of it is drained
as one DECODED event. -/
theorem sentFrameLoopsBack : Obligations.SentFrameLoopsBack := by
  intro cfg i s t c f h hout hunpack u d hsq hd hbuf
  have hvalid := (effect_sent_legal (effect_of_execIn h) hout).validFrame hunpack
  have hfeed (bs : List Byte) : execAllIn cfg (feeds d bs) u = .next (drainInto cfg d bs u) := by
    rw [chunkEquivalence cfg u d bs hsq hd (.inl hbuf), feedChunk, hbuf, List.nil_append]
  refine ⟨fun k hk => ?_, ?_⟩
  · rw [hfeed, drainInto_quiescent d u (hvalid.quiescent_take hk)]
  · have hempty : u.setBuf d [] = u := by rw [← hbuf, State.setBuf_buf_self]
    rw [hfeed, drainInto, drain_validFrame d hvalid, hempty]
    rfl

/-! ### Sequence numbering (R133) -/

@[simp] theorem seqsFrom_length (q : Byte) (n : Nat) : (seqsFrom q n).length = n := by
  induction n generalizing q with
  | zero => rfl
  | succ n ih => rw [seqsFrom, List.length_cons, ih]

/-- From `s` to `t` every channel sends frames that carry the numbers from its counter on, and its
counter advances by as many. -/
def Numbered (s t : State) : Prop :=
  ∃ es, t.out = s.out ++ es ∧ ∀ c, ∃ n,
    sentSeqs c es = seqsFrom (s.txseq c) n ∧ t.txseq c = s.txseq c + BitVec.ofNat 8 n

/-- Where nothing is sent and no counter moves, the numbering goes on. -/
theorem Numbered.of_unsent {s t : State} {es : List Event} (hout : t.out = s.out ++ es)
    (hes : ∀ c, sentSeqs c es = []) (hseq : ∀ c, t.txseq c = s.txseq c) : Numbered s t :=
  ⟨es, hout, fun c => ⟨0, hes c, by simp [hseq c]⟩⟩

theorem Numbered.refl (s : State) : Numbered s s :=
  .of_unsent (List.append_nil _).symm (fun _ => rfl) (fun _ => rfl)

theorem Numbered.trans {s t u : State} (h : Numbered s t) (h' : Numbered t u) : Numbered s u := by
  obtain ⟨es, hout, hnum⟩ := h
  obtain ⟨fs, hout', hnum'⟩ := h'
  refine ⟨es ++ fs, by rw [hout', hout, List.append_assoc], fun c => ?_⟩
  obtain ⟨m, hsent, hseq⟩ := hnum c
  obtain ⟨n, hsent', hseq'⟩ := hnum' c
  refine ⟨m + n, ?_, ?_⟩
  · rw [sentSeqs_append, hsent, hsent', hseq, seqsFrom_append]
  · rw [hseq', hseq, BitVec.ofNat_add, BitVec.add_assoc]

/-- Taking a word from the port touches no counter and emits nothing. -/
theorem Numbered.of_setInput {s t : State} {rest : List PortInput}
    (h : Numbered (s.setInput rest) t) : Numbered s t := h

theorem sentSeqs_drain (d : Byte) {cfg : Config} {c : Byte} {b b' : List Byte} {es : List Event}
    (h : DrainRuns cfg c b es b') : sentSeqs d es = [] := by
  refine List.filterMap_eq_nil_iff.2 fun ev hev => ?_
  rcases h.events ev hev with ⟨f, rfl⟩ | ⟨r, x, rfl⟩ <;> rfl

theorem Numbered.feed (cfg : Config) (c x : Byte) (s : State) : Numbered s (feed cfg c x s) := by
  rcases feed_cases cfg c x s with ⟨-, h⟩ | ⟨-, -, h⟩ | ⟨-, -, h⟩ <;> rw [h]
  · exact .of_unsent rfl (fun _ => rfl) (fun _ => rfl)
  · exact .of_unsent (List.append_nil _).symm (fun _ => rfl) (fun _ => rfl)
  · exact .of_unsent rfl (fun d => sentSeqs_drain d (drain_runs cfg c _)) (drainInto_txseq cfg c _ s)

/-- The end of a SEND sends no frame, or one with its channel's counter before its increment (R129). -/
theorem Numbered.sendResult (cfg : Config) (c id sy co : Byte) (p : List Byte) (s : State) :
    Numbered s (sendResult cfg c id sy co p s) := by
  rcases sendResult_cases cfg c id sy co p s with ⟨-, h⟩ | ⟨-, -, h⟩ | ⟨e, -, -, -, h⟩ |
    ⟨e, -, -, -, h⟩ <;> rw [h]
  · exact .of_unsent rfl (fun _ => rfl) (fun _ => rfl)
  · exact .of_unsent rfl (fun _ => rfl) (fun _ => rfl)
  · exact .of_unsent rfl (fun _ => rfl) (fun _ => rfl)
  · refine ⟨_, rfl, fun d => ?_⟩
    by_cases hd : d = c
    · subst hd
      exact ⟨1, by simp [sentSeqs, seqsFrom], by simp⟩
    · exact ⟨0, by simp [sentSeqs, seqsFrom, Ne.symm hd], by simp [hd]⟩

/-- Every command keeps the numbering: only the end of a SEND sends a frame or moves a counter. -/
theorem effect_numbered {cfg : Config} {i : Instr} {s t : State} (h : Effect cfg s i t) :
    Numbered s t := by
  cases h with
  | feed c x => exact .feed cfg c x s
  | crc e n =>
    rcases crcHeader_cases e n s with ⟨-, h⟩ | ⟨-, h⟩ <;> rw [h]
    · exact .of_unsent rfl (fun _ => rfl) (fun _ => rfl)
    · exact .of_unsent (List.append_nil _).symm (fun _ => rfl) (fun _ => rfl)
  | idsLast sy co c id p => exact .sendResult cfg c id sy co p s
  | payloadLast x n c id sy co p => exact .sendResult cfg c id sy co (p ++ [x]) s
  | nop | send | ids | payload | fold =>
    exact .of_unsent (List.append_nil _).symm (fun _ => rfl) (fun _ => rfl)
  | strayId | strayData | aborted | foldLast => exact .of_unsent rfl (fun _ => rfl) (fun _ => rfl)

/-- A step of a run without a reset keeps the numbering, and queues no reset. -/
theorem step_numbered {s t : State} (h : step s = .next t) (hin : ∀ x ∈ s.input, x ≠ .reset) :
    Numbered s t ∧ ∀ x ∈ t.input, x ≠ .reset := by
  rcases step_next h with ⟨-, -, rfl⟩ | ⟨rest, hreset, rfl⟩ | ⟨w, rest, i, hword, -, -, hex⟩ |
    ⟨w, rest, e, hword, -, -, hill⟩
  · exact ⟨.refl t, hin⟩
  · simp [hreset] at hin
  all_goals
    rw [hword] at hin
    replace hin := (List.forall_mem_cons.1 hin).2
  · have heff := effect_of_exec hex
    exact ⟨(effect_numbered heff).of_setInput, effect_input heff ▸ hin⟩
  · rcases illegalWord_next hill with ⟨-, rfl⟩ | ⟨-, k, ch, -, rfl⟩ <;>
      exact ⟨.of_unsent rfl (fun _ => rfl) (fun _ => rfl), hin⟩

theorem steps_numbered {k : Nat} {s t : State} (h : steps k s = .next t)
    (hin : ∀ x ∈ s.input, x ≠ .reset) : Numbered s t := by
  induction k generalizing s with
  | zero =>
    cases h
    exact .refl _
  | succ k ih =>
    cases hstep : step s with
    | next u =>
      obtain ⟨hnum, hin'⟩ := step_numbered hstep hin
      exact hnum.trans (ih (by simpa only [steps, hstep] using h) hin')
    | fault f => simp [steps, hstep] at h
    | refused r => simp [steps, hstep] at h

/-- Settles O59: every step keeps the numbering, and so does a run. -/
theorem sentFramesNumbered : Obligations.SentFramesNumbered := by
  intro k s t h hin
  obtain ⟨es, hout, hnum⟩ := steps_numbered h hin
  refine ⟨es, hout, fun c => ?_⟩
  obtain ⟨n, hsent, hseq⟩ := hnum c
  rw [hsent, seqsFrom_length, hseq, BitVec.toNat_add, BitVec.toNat_ofNat, Nat.add_mod_mod]
  exact ⟨rfl, rfl⟩

/-! ### What a step does with a word (R120) -/

/-- With FAULT clear, an illegal word at the head of the port is reported. -/
theorem step_of_illegal_word {s : State} {w : Word} {rest : List PortInput} {e : IllegalWord}
    (hin : s.input = .word w :: rest) (hfault : s.fault = none) (hdec : decode w = .error e) :
    step s = illegalWord (fieldOp w) (s.setInput rest) := by
  simp only [step, fetch, hin, hfault, hdec]

/-- Settles O24: `fetch` asks for FAULT before it takes a word, and for a reset before that. -/
theorem faultedMachineTakesNoStep : Obligations.FaultedMachineTakesNoStep := by
  refine ⟨fun s c hfault hin => ?_, fun s t hfault h => ?_⟩
  · cases hport : s.input with
    | nil => simp only [step, fetch, hport, hfault, faultOfRecord]
    | cons x rest =>
      cases x with
      | reset => exact absurd hport (hin rest)
      | word w => simp only [step, fetch, hport, hfault, faultOfRecord]
  · rcases step_next h with ⟨-, h0, -⟩ | ⟨rest, hin, -⟩ | ⟨_, _, _, -, h0, -⟩ | ⟨_, _, _, -, h0, -⟩
    · exact absurd h0 hfault
    · exact ⟨rest, hin⟩
    · exact absurd h0 hfault
    · exact absurd h0 hfault

/-- Settles O27: the word is reported by `illegal`. -/
theorem illegalWordInIdle : Obligations.IllegalWordInIdle := by
  intro s w rest e hin hfault hdec hsq
  rw [step_of_illegal_word hin hfault hdec, illegalWord,
    whenIdle_idle (s := s.setInput rest) hsq]
  rfl

theorem execIn_sendid_idle {cfg : Config} {s : State} (sy co : Byte) (hsq : s.sq = .idle) :
    execIn cfg (.sendid sy co) s = .next (sequenceError 0x3 s) := by
  simp only [execIn, sendidIn, hsq]

theorem execIn_data_idle {cfg : Config} {s : State} (x : Byte) (hsq : s.sq = .idle) :
    execIn cfg (.data x) s = .next (sequenceError 0x4 s) := by
  simp only [execIn, dataIn, hsq]

/-- Settles O28: either word is reported by `sequenceError`. -/
theorem strayWordInIdle : Obligations.StrayWordInIdle := by
  refine fun s hsq => ⟨fun sy co => ?_, fun x => ?_⟩
  · rw [← execIn_chip, execIn_sendid_idle sy co hsq]
    rfl
  · rw [← execIn_chip, execIn_data_idle x hsq]
    rfl

/-! ### Aborts (R131) -/

/-- The opcode field of a legal word is its command's opcode (30_encoding.md R73). -/
theorem fieldOp_of_decode {w : Word} {i : Instr} (h : decode w = .ok i) : fieldOp w = i.opcode := by
  have hw : InFormat w i := decode_eq_ok.1 h
  cases i with
  | nop => exact congrArg fieldOp hw
  | _ => exact hw.1

/-- Inside an open command every command but NOP and the expected one aborts. -/
theorem execIn_unexpected {cfg : Config} {s : State} {w : Word} {i : Instr} (hdec : decode w = .ok i)
    (hw : w ≠ 0) (hsq : s.sq ≠ .idle) (hexp : ¬ Expected s.sq w) :
    execIn cfg i s = abort (fieldOp w) s := by
  rw [fieldOp_of_decode hdec]
  cases i with
  | nop => exact absurd (decode_eq_ok.1 hdec) hw
  | feed => exact whenIdle_open hsq
  | send => exact whenIdle_open hsq
  | crc => exact whenIdle_open hsq
  | sendid sy co =>
    cases hq : s.sq with
    | idle => exact absurd hq hsq
    | sendId =>
      rw [hq] at hexp
      exact absurd ⟨sy, co, hdec⟩ hexp
    | sendData => simp only [execIn, sendidIn, hq, Instr.opcode]
    | crcData => simp only [execIn, sendidIn, hq, Instr.opcode]
  | data x =>
    rw [execIn, dataIn]
    cases hq : s.sq with
    | idle => exact absurd hq hsq
    | sendId => rfl
    | sendData | crcData =>
      rw [hq] at hexp
      exact absurd ⟨x, hdec⟩ hexp

/-- A step that finds an unexpected word inside an open command is an abort. -/
theorem step_of_unexpected_word {s : State} {w : Word} {rest : List PortInput}
    (hin : s.input = .word w :: rest) (hfault : s.fault = none) (hw : w ≠ 0) (hsq : s.sq ≠ .idle)
    (hexp : ¬ Expected s.sq w) : step s = abort (fieldOp w) (s.setInput rest) := by
  cases hdec : decode w with
  | ok i =>
    rw [step_of_fetch_command (fetch_of_legal_word hin hfault hdec), ← execIn_chip]
    exact execIn_unexpected (s := s.setInput rest) hdec hw hsq hexp
  | error e =>
    rw [step_of_illegal_word hin hfault hdec]
    exact whenIdle_open (s := s.setInput rest) hsq

/-- An abort of an open CRC reports channel 0. -/
theorem abort_crc {op : Nibble} {s : State} (hsq : s.sq = .crcData) :
    abort op s = .next (abortWith op 0x5 0 s) :=
  abort_next.2 ⟨0x5, 0, .inl ⟨hsq, rfl, rfl⟩, rfl⟩

/-- Settles O29: the step is an abort, of a CRC or of a SEND. -/
theorem unexpectedWordAborts : Obligations.UnexpectedWordAborts := by
  intro s w rest hin hfault hw hexp
  refine ⟨fun hsq => ?_, fun ch hsq hch => ?_⟩
  · rw [step_of_unexpected_word hin hfault hw (by simp [hsq]) hexp,
      abort_crc (s := s.setInput rest) hsq]
    rfl
  · rw [step_of_unexpected_word hin hfault hw (by rcases hsq with hsq | hsq <;> simp [hsq]) hexp,
      abort_send (s := s.setInput rest) hsq hch]
    rfl

/-! ### Every word is answered (R120) -/

section
variable {s : State} (hfit : LatchesFit s.sq s.p)
include hfit

/-- Fitting latches hold the channel of an open SEND, so every abort knows what to report. -/
theorem LatchesFit.abort_answers (op : Nibble) (hsq : s.sq ≠ .idle) :
    ∃ t, abort op s = .next t := by
  cases hq : s.sq with
  | idle => exact absurd hq hsq
  | sendId =>
    rw [hq] at hfit
    obtain ⟨ch, id, n, hp⟩ := hfit
    exact ⟨_, abort_send (ch := ch) (.inl hq) (by rw [hp])⟩
  | sendData =>
    rw [hq] at hfit
    obtain ⟨ch, id, n, sy, co, pay, -, hp⟩ := hfit
    exact ⟨_, abort_send (ch := ch) (.inr hq) (by rw [hp])⟩
  | crcData => exact ⟨_, abort_crc hq⟩

theorem LatchesFit.whenIdle_answers (op : Nibble) (u : State) :
    ∃ t, whenIdle op s (.next u) = .next t := by
  by_cases hq : s.sq = .idle
  · exact ⟨u, whenIdle_idle hq⟩
  · rw [whenIdle_open hq]
    exact hfit.abort_answers op hq

theorem LatchesFit.sendid_answers (cfg : Config) (sy co : Byte) :
    ∃ t, execIn cfg (.sendid sy co) s = .next t := by
  cases hq : s.sq with
  | idle => exact ⟨_, execIn_sendid_idle sy co hq⟩
  | sendId =>
    rw [hq] at hfit
    obtain ⟨ch, id, n, hp⟩ := hfit
    rw [execIn_sendid sy co hq]
    by_cases hn : n = 0
    · exact ⟨_, sendIds_last (c := ch) (id := id) (p := []) hq (by rw [hp, hn]) (by rw [hp])
        (by rw [hp]) (by rw [hp])⟩
    · exact ⟨_, sendIds_more hq (by rw [hp]) hn⟩
  | sendData | crcData =>
    simp only [execIn, sendidIn, hq]
    exact hfit.abort_answers 0x3 (by simp [hq])

theorem LatchesFit.data_answers (cfg : Config) (x : Byte) :
    ∃ t, execIn cfg (.data x) s = .next t := by
  cases hq : s.sq with
  | idle => exact ⟨_, execIn_data_idle x hq⟩
  | sendId =>
    simp only [execIn, dataIn, hq]
    exact hfit.abort_answers 0x4 (by simp [hq])
  | sendData =>
    rw [hq] at hfit
    obtain ⟨ch, id, n, sy, co, pay, -, hp⟩ := hfit
    rw [execIn_data_send x hq]
    by_cases hlast : pay.length + 1 = n.toNat
    · exact ⟨_, sendData_last (c := ch) (id := id) (sy := sy) (co := co) hq (by rw [hp]) (by rw [hp])
        hlast (by rw [hp]) (by rw [hp]) (by rw [hp]) (by rw [hp])⟩
    · exact ⟨_, sendData_more hq (by rw [hp]) (by rw [hp]) hlast⟩
  | crcData =>
    rw [hq] at hfit
    obtain ⟨e, r, a, -, hp⟩ := hfit
    rw [execIn_data_crc x hq]
    by_cases hlast : r - 1 = 0
    · exact ⟨_, crcData_last (e := e) hq (by rw [hp]) (by rw [hp]) hlast (by rw [hp])⟩
    · exact ⟨_, crcData_more hq (by rw [hp]) (by rw [hp]) hlast⟩

/-- With fitting latches no command reads an empty one. -/
theorem LatchesFit.execIn_answers (cfg : Config) (i : Instr) : ∃ t, execIn cfg i s = .next t := by
  cases i with
  | nop => exact ⟨s, rfl⟩
  | feed => exact hfit.whenIdle_answers _ _
  | send => exact hfit.whenIdle_answers _ _
  | sendid sy co => exact hfit.sendid_answers cfg sy co
  | data x => exact hfit.data_answers cfg x
  | crc => exact hfit.whenIdle_answers _ _

/-- With fitting latches and FAULT clear every step answers a next state. -/
theorem LatchesFit.step_answers (hfault : s.fault = none) : ∃ t, step s = .next t := by
  cases hin : s.input with
  | nil => exact ⟨s, by simp only [step, fetch, hin, hfault]⟩
  | cons x rest =>
    cases x with
    | reset => exact ⟨resetBlock (s.setInput rest), by simp only [step, fetch, hin]⟩
    | word w =>
      have hfit' : LatchesFit (s.setInput rest).sq (s.setInput rest).p := hfit
      cases hdec : decode w with
      | ok i =>
        rw [step_of_fetch_command (fetch_of_legal_word hin hfault hdec), ← execIn_chip]
        exact hfit'.execIn_answers Config.chip i
      | error e =>
        rw [step_of_illegal_word hin hfault hdec]
        exact hfit'.whenIdle_answers _ _

end

/-- Settles O47: the latches fit, so the step answers, and what it answers is safe. -/
theorem safeStepsNeverStop : Obligations.SafeStepsNeverStop := by
  intro s hs
  obtain ⟨t, h⟩ := hs.latches.step_answers hs.noFault
  exact ⟨t, h, (stepKeepsSafe s t hs h).noFault⟩

/-! ### The commands in the state that expects them (R121 to R129) -/

/-- Settles O30: NOP's meaning is the state it is given. -/
theorem nopChangesNothing : Obligations.NopChangesNothing := fun _ => rfl

/-- Settles O32: the channel check of `feed` comes first. -/
theorem feedRefusesBadChannel : Obligations.FeedRefusesBadChannel := by
  intro cfg s c x hsq hc
  rw [execIn_feed_idle c x hsq, feed_badChannel x s hc]
  rfl

/-- Settles O34: the header in IDLE is `sendHeader`. -/
theorem sendHeaderOpens : Obligations.SendHeaderOpens := by
  intro s ch id n hsq
  rw [← execIn_chip, execIn_send_idle ch id n hsq]
  rfl

/-- Settles O35: the ids are latched and PLEN is not 0. -/
theorem sendidLatchesIds : Obligations.SendidLatchesIds := by
  intro s sy co n hsq hn h0
  rw [← execIn_chip, execIn_sendid sy co hsq, sendIds_more hsq hn h0]
  rfl

/-- Settles O36: with PLEN = 0 the SENDID is a SEND_COMPLETE. -/
theorem sendidCompletesEmptySend : Obligations.SendidCompletesEmptySend := by
  intro cfg s sy co c id p hsq hn hch hid hpay
  rw [execIn_sendid sy co hsq]
  exact ⟨_, sendIds_last hsq hn hch hid hpay, sendEnds_sendResult cfg c id sy co p s⟩

/-- Settles O37: the payload is still short of PLEN. -/
theorem dataAppendsPayload : Obligations.DataAppendsPayload := by
  intro s x n p hsq hpay hn hl
  rw [← execIn_chip, execIn_data_send x hsq, sendData_more hsq hpay hn hl]
  rfl

/-- Settles O38: the payload has reached PLEN, so the DATA is a SEND_COMPLETE. -/
theorem dataCompletesSend : Obligations.DataCompletesSend := by
  intro cfg s x n c id sy co p hsq hpay hn hl hch hid hsy hco
  rw [execIn_data_send x hsq]
  exact ⟨_, sendData_last hsq hpay hn hl hch hid hsy hco,
    sendEnds_sendResult cfg c id sy co (p ++ [x]) s⟩

end Sys2Proof.Machine

/-! SUPPORT. An error stands alone in its step and reaches no channel (60_exceptions.md R153, R156,
R157). -/

namespace Sys2Proof.Machine

/-- Between `s` and `t` events are appended to OUT. If an EV_ERROR is among them, it is the only one,
no buffer and no counter differ, and the machine is in IDLE. -/
def ErrorAlone (s t : State) : Prop :=
  ∃ es, t.out = s.out ++ es ∧
    ((∃ e ∈ es, e.isError = true) →
      es.length = 1 ∧ (∀ d, t.buf d = s.buf d) ∧ (∀ d, t.txseq d = s.txseq d) ∧ t.sq = .idle)

theorem ErrorAlone.of_noError {s t : State} {es : List Event} (hout : t.out = s.out ++ es)
    (hes : ∀ e ∈ es, ¬ e.isError = true) : ErrorAlone s t :=
  ⟨es, hout, fun ⟨e, he, herr⟩ => absurd herr (hes e he)⟩

theorem ErrorAlone.of_silent {s t : State} (hout : t.out = s.out) : ErrorAlone s t :=
  .of_noError (es := []) (by rw [hout, List.append_nil]) (by simp)

/-- In IDLE one event, an error or not, may be emitted over an unchanged channel file. -/
theorem ErrorAlone.of_emits {s u : State} (ev : Event) (hout : u.out = s.out)
    (hchan : ∀ d, u.chan d = s.chan d) (hsq : u.sq = .idle) : ErrorAlone s (u.emits [ev]) :=
  ⟨[ev], by rw [State.emits_out, hout],
    fun _ => ⟨rfl, fun d => congrArg Channel.buf (hchan d), fun d => congrArg Channel.txseq (hchan d),
      hsq⟩⟩

/-- A command may be closed with one event, an error or not. -/
theorem ErrorAlone.of_closeCommand (s : State) (ev : Event) :
    ErrorAlone s (s.closeCommand.emits [ev]) :=
  .of_emits ev rfl (fun _ => rfl) rfl

/-- Taking a word from the port touches no channel and emits nothing. -/
theorem ErrorAlone.of_setInput {s t : State} {rest : List PortInput}
    (h : ErrorAlone (s.setInput rest) t) : ErrorAlone s t := h

/-- The drain decodes and discards; it raises no error (42_session.md R124). -/
theorem DrainRuns.noError {cfg : Config} {c : Byte} {b b' : List Byte} {es : List Event}
    (h : DrainRuns cfg c b es b') : ∀ e ∈ es, ¬ e.isError = true := by
  intro e he
  rcases h.events e he with ⟨f, rfl⟩ | ⟨r, x, rfl⟩ <;> exact Bool.false_ne_true

/-- A FEED raises its channel error before it reaches a buffer, or no error (42_session.md R123). -/
theorem ErrorAlone.feed (cfg : Config) (c x : Byte) {s : State} (hsq : s.sq = .idle) :
    ErrorAlone s (feed cfg c x s) := by
  rcases feed_cases cfg c x s with ⟨-, h⟩ | ⟨-, -, h⟩ | ⟨-, -, h⟩ <;> rw [h]
  · exact .of_emits _ rfl (fun _ => rfl) hsq
  · exact .of_silent rfl
  · exact .of_noError (drainInto_out ..) (drain_runs cfg c _).noError

/-- The end of a SEND moves a counter with a frame only, never with an error (42_session.md R129). -/
theorem ErrorAlone.sendResult (cfg : Config) (c id sy co : Byte) (p : List Byte) (s : State) :
    ErrorAlone s (sendResult cfg c id sy co p s) := by
  obtain ⟨ev, -, h | ⟨-, ⟨seed, rfl⟩, h⟩⟩ := sendResult_event cfg c id sy co p s <;> rw [h]
  · exact .of_closeCommand s ev
  · exact .of_noError rfl (by simp [Event.isError])

/-- Whatever rule a command runs by, an error it raises is alone. -/
theorem effect_errorAlone {cfg : Config} {i : Instr} {s t : State} (h : Effect cfg s i t) :
    ErrorAlone s t := by
  cases h with
  | feed c x hsq => exact .feed cfg c x hsq
  | crc e n hsq =>
    rcases crcHeader_cases e n s with ⟨-, h⟩ | ⟨-, h⟩ <;> rw [h]
    · exact .of_closeCommand s _
    · exact .of_silent rfl
  | idsLast sy co c id p => exact .sendResult cfg c id sy co p s
  | payloadLast x n c id sy co p => exact .sendResult cfg c id sy co (p ++ [x]) s
  | strayId _ _ hsq | strayData _ hsq => exact .of_emits _ rfl (fun _ => rfl) hsq
  | aborted | foldLast => exact .of_closeCommand s _
  | nop | send | ids | payload | fold => exact .of_silent rfl

/-- Settles O52: by what the step does, wait, reset, run a command or report an illegal word. -/
theorem errorsLeaveChannels : Obligations.ErrorsLeaveChannels := by
  intro s t h
  change ErrorAlone s t
  rcases step_next h with ⟨-, -, rfl⟩ | ⟨rest, -, rfl⟩ | ⟨w, rest, i, -, -, -, hex⟩ |
    ⟨w, rest, e, -, -, -, hill⟩
  · exact .of_silent rfl
  · exact .of_silent rfl
  · exact (effect_errorAlone (effect_of_exec hex)).of_setInput
  · rcases illegalWord_next hill with ⟨hsq, rfl⟩ | ⟨-, k, ch, -, rfl⟩
    · exact .of_emits _ rfl (fun _ => rfl) hsq
    · exact .of_closeCommand s _

end Sys2Proof.Machine

/-! SUPPORT. The reset input (70_reset_and_hazards.md R170). -/

namespace Sys2Proof.Machine

/-- A step takes the reset input before it looks at FAULT or at the open command. -/
theorem step_of_reset_input {s : State} {rest : List PortInput} (hin : s.input = .reset :: rest) :
    step s = .next (resetBlock (s.setInput rest)) := by
  simp only [step, fetch, hin]

/-- Settles O25: the step answers `resetBlock`, whose fields are the reset values but for OUT and the
inputs. -/
theorem resetInputResets : Obligations.ResetInputResets := by
  intro s rest hin
  exact ⟨_, step_of_reset_input hin, resetBlock_buf _, resetBlock_txseq _, resetBlock_sq _,
    resetBlock_p _, resetBlock_fault _, resetBlock_out _, resetBlock_input _⟩

end Sys2Proof.Machine

/-! SUPPORT. The waiting step, the machine's own configuration, and FEED onto a full buffer
(70_reset_and_hazards.md R170, 00_scope.md section 3, 20_memory.md R42). -/

namespace Sys2Proof.Machine

/-- With FAULT clear and nothing on the inputs, there is nothing to take. -/
theorem fetch_of_no_input {s : State} (hin : s.input = []) (hfault : s.fault = none) :
    fetch s = .wait := by
  simp only [fetch, hin, hfault]

/-- A step that has nothing to take leaves the state as it is. -/
theorem step_of_fetch_wait {s : State} (h : fetch s = .wait) : step s = .next s := by
  simp only [step, h]

/-- Settles O22: the fetch finds nothing to take, and the step then waits. -/
theorem stepWaitsForInput : Obligations.StepWaitsForInput :=
  fun _ hin hfault => step_of_fetch_wait (fetch_of_no_input hin hfault)

/-- Settles O23: command by command, the meaning is the one under `Config.chip`. -/
theorem execUsesChipConfig : Obligations.ExecUsesChipConfig :=
  fun i s => (execIn_chip i s).symm

/-- Settles O33: the push finds the buffer full, and a machine with FAULT set takes no word. -/
theorem feedOntoFullBufferFaults : Obligations.FeedOntoFullBufferFaults := by
  intro s c x hsq hc hfull
  refine ⟨?_, fun w rest => ?_⟩
  · rw [← execIn_chip, execIn_feed_idle c x hsq, feed_full x hc hfull]
    rfl
  · obtain ⟨hstops, -⟩ := faultedMachineTakesNoStep
    exact hstops _ c rfl (fun _ hreset => by cases hreset)

end Sys2Proof.Machine
